-- ==== Sys2Proof/Word.lean ====
section
/-! DEFINITION. The value types of rule R7 (00_scope.md): the width of every value the CORE holds or moves. -/

namespace Sys2Proof

/-- A packed byte, an unpacked cell or a response code: 8 bits (R7, R24, R30). -/
abbrev Byte := BitVec 8

/-- A command word, `arg`, `REM` or a response value: 32 bits (R7, R25, R60). -/
abbrev Word := BitVec 32

/-- A block or a row of the automaton: 128 bits, bit `i` of weight `2^i` (R6). -/
abbrev Block := BitVec 128

/-- The unpacked form of a block: 128 cells of 8 bits, cell 0 first (R24). -/
abbrev Cells := Vector Byte 128

end Sys2Proof
end

