-- ==== Sys2Proof/Syntax.lean ====
section
/-! DEFINITION. What the host sends (R60, R188), the commands of opcode_table.json as one inductive
(R64), and the pseudo-instructions of R70. -/

namespace Sys2Proof

/-- The block registers a BR field can name: 0 ROW, 1 CC, 2 SEED (R20, R61). BR = 3 names none. -/
inductive Br where
  | row
  | cc
  | seed
  deriving DecidableEq, Repr

/-- A command on the port: the word, the operand `arg` and the payload (R60). Any triple can be sent. -/
structure Command where
  word : Word
  arg  : Word
  data : List Byte
  deriving DecidableEq, Repr

/-- What the host can do to the CORE (R188). -/
inductive HostInput where
  /-- One command. -/
  | command (c : Command)
  /-- The reset input, asserted between two commands (R180). -/
  | reset
  /-- A command during whose execution reset is asserted (R181). -/
  | resetDuring (c : Command)
  deriving DecidableEq, Repr

/-- The 17 commands of R64, each with the operands it reads. -/
inductive Instr where
  /-- R80: read bit `idx` of a block register. `idx` is 8 bits, so that 128..255 can be sent (R63). -/
  | getbit (br : Br) (idx : BitVec 8)
  /-- R81: write bit `idx` of a block register. -/
  | setbit (br : Br) (idx : BitVec 8) (val : Bool)
  /-- R82: load a block register from its packed bytes. -/
  | wrblk (br : Br) (data : List Byte)
  /-- R83: read a block register as packed bytes. -/
  | rdblk (br : Br)
  /-- R131: load the canonical seed. -/
  | ldcanon (br : Br)
  /-- R84: load the unpacked cell buffer. -/
  | wrunp (data : List Byte)
  /-- R85: read the unpacked cell buffer. -/
  | rdunp
  /-- R86: lossless unpacked-to-packed conversion. -/
  | pack (br : Br)
  /-- R87: lossless packed-to-unpacked conversion. -/
  | unpack (br : Br)
  /-- R88: the saturating conversion. -/
  | bitpack (br : Br)
  /-- R104: one generation of ROW. -/
  | step
  /-- R105: one evaluation of ROW. -/
  | eval
  /-- R121: two chained evaluations of ROW. -/
  | compress
  /-- R134: configure the stream with a total budget. -/
  | strinit (arg : Word)
  /-- R135: deliver up to `arg` bytes. -/
  | pull (arg : Word)
  /-- R138: read STATUS. -/
  | rdstat
  /-- R139: read REM. -/
  | rdrem
  deriving DecidableEq, Repr

/-- The pseudo-instructions of R70. -/
inductive Pseudo where
  | clrbit (br : Br) (idx : BitVec 8)
  | ldseed (data : List Byte)
  | canonseed
  | stream (data : List Byte) (n : Word)
  | oneshot (data : List Byte)
  deriving DecidableEq, Repr

end Sys2Proof
end

