-- ==== Sys2Proof/WellFormed.lean ====
section
/-! DEFINITION. Which terms of `Instr` are commands the host can have accepted: the payload has the
length R66 requires. Every other operand of `Instr` has a type that holds the legal values only. -/

namespace Sys2Proof

/-- R66: WRBLK carries exactly 16 bytes and WRUNP exactly 128. The VALUES of WRUNP's bytes are no matter
of form: R84 gives a byte above 1 its fault. -/
def Instr.wellFormed : Instr → Bool
  | .wrblk _ data => data.length == 16
  | .wrunp data   => data.length == 128
  | .getbit _ _   => true
  | .setbit _ _ _ => true
  | .rdblk _      => true
  | .ldcanon _    => true
  | .rdunp        => true
  | .pack _       => true
  | .unpack _     => true
  | .bitpack _    => true
  | .step         => true
  | .eval         => true
  | .compress     => true
  | .strinit _    => true
  | .pull _       => true
  | .rdstat       => true
  | .rdrem        => true

/-- R69: `hex16` is 32 hexadecimal digits, that is 16 bytes. -/
def Pseudo.wellFormed : Pseudo → Bool
  | .ldseed data   => data.length == 16
  | .stream data _ => data.length == 16
  | .oneshot data  => data.length == 16
  | .clrbit _ _    => true
  | .canonseed     => true

end Sys2Proof
end

