-- ==== Sys2Proof/Decode.lean ====
section
/-! DEFINITION. The encoding of 30_encoding.md: fields, formats, opcode map, the total decoder of R65,
the encoder of R69, the pseudo-instructions of R70, and the table word the host asks about. -/

namespace Sys2Proof

/-- The two faults the decoder of R65 raises. -/
inductive DecodeError where
  /-- ILLEGAL_COMMAND: unknown OPC, a reserved bit set, or BR = 3 (R67). -/
  | illegalCommand
  /-- LENGTH_ERROR: the payload is not the length the opcode requires (R66). -/
  | lengthError
  deriving DecidableEq, Repr

/-! ## Fields of the command word (R61, R63) -/

/-- OPC, bits [7:0]. -/
def opcField (w : Word) : Byte := w.extractLsb' 0 8

/-- BR, bits [9:8]. -/
def brField (w : Word) : BitVec 2 := w.extractLsb' 8 2

/-- IDX, bits [23:16]. It is not masked to 7 bits (R63). -/
def idxField (w : Word) : BitVec 8 := w.extractLsb' 16 8

/-- VAL, bit [24]. -/
def valField (w : Word) : Bool := w.getLsbD 24

/-- R61: the register a BR field names; 3 names none. -/
def brOfField (b : BitVec 2) : Option Br :=
  match b.toNat with
  | 0 => some .row
  | 1 => some .cc
  | 2 => some .seed
  | _ => none

/-- R61: the BR field of a register. -/
def fieldOfBr : Br → BitVec 2
  | .row  => 0
  | .cc   => 1
  | .seed => 2

/-! ## Formats and the opcode map (R62, R64) -/

/-- The four formats of R62. -/
inductive Format where
  | fmtN
  | fmtB
  | fmtBI
  | fmtBIV
  deriving DecidableEq, Repr

/-- R62: the mask of fixed bits; its bits outside OPC must be 0 in the word. -/
def formatMask : Format → Word
  | .fmtN   => 0xFFFFFFFF
  | .fmtB   => 0xFFFFFCFF
  | .fmtBI  => 0xFF00FCFF
  | .fmtBIV => 0xFE00FCFF

/-- The rows of R64. -/
inductive Opcode where
  | getbit | setbit | wrblk | rdblk | ldcanon | wrunp | rdunp | pack | unpack | bitpack
  | step | eval | compress | strinit | pull | rdstat | rdrem
  deriving DecidableEq, Repr

/-- R64, column OPC. -/
def opcodeByte : Opcode → Byte
  | .getbit   => 0x01
  | .setbit   => 0x02
  | .wrblk    => 0x03
  | .rdblk    => 0x04
  | .ldcanon  => 0x05
  | .wrunp    => 0x08
  | .rdunp    => 0x09
  | .pack     => 0x0A
  | .unpack   => 0x0B
  | .bitpack  => 0x0C
  | .step     => 0x10
  | .eval     => 0x11
  | .compress => 0x12
  | .strinit  => 0x20
  | .pull     => 0x21
  | .rdstat   => 0x30
  | .rdrem    => 0x31

/-- R64 read the other way: the row of an OPC value, none for the values R67 lists as unassigned. -/
def opcodeOfByte (b : Byte) : Option Opcode :=
  match b.toNat with
  | 0x01 => some .getbit
  | 0x02 => some .setbit
  | 0x03 => some .wrblk
  | 0x04 => some .rdblk
  | 0x05 => some .ldcanon
  | 0x08 => some .wrunp
  | 0x09 => some .rdunp
  | 0x0A => some .pack
  | 0x0B => some .unpack
  | 0x0C => some .bitpack
  | 0x10 => some .step
  | 0x11 => some .eval
  | 0x12 => some .compress
  | 0x20 => some .strinit
  | 0x21 => some .pull
  | 0x30 => some .rdstat
  | 0x31 => some .rdrem
  | _    => none

/-- R64, column format. -/
def opcodeFormat : Opcode → Format
  | .getbit   => .fmtBI
  | .setbit   => .fmtBIV
  | .wrblk    => .fmtB
  | .rdblk    => .fmtB
  | .ldcanon  => .fmtB
  | .wrunp    => .fmtN
  | .rdunp    => .fmtN
  | .pack     => .fmtB
  | .unpack   => .fmtB
  | .bitpack  => .fmtB
  | .step     => .fmtN
  | .eval     => .fmtN
  | .compress => .fmtN
  | .strinit  => .fmtN
  | .pull     => .fmtN
  | .rdstat   => .fmtN
  | .rdrem    => .fmtN

/-- R64, column data length, and R66: fixed by the opcode alone (R68). -/
def opcodeDataLength : Opcode → Nat
  | .wrblk    => 16
  | .wrunp    => 128
  | .getbit   => 0
  | .setbit   => 0
  | .rdblk    => 0
  | .ldcanon  => 0
  | .rdunp    => 0
  | .pack     => 0
  | .unpack   => 0
  | .bitpack  => 0
  | .step     => 0
  | .eval     => 0
  | .compress => 0
  | .strinit  => 0
  | .pull     => 0
  | .rdstat   => 0
  | .rdrem    => 0

/-- R63: the instruction of a row, from the operands its format uses. `arg` is read by STRINIT and PULL
alone (R60). -/
def assemble (o : Opcode) (br : Br) (idx : BitVec 8) (val : Bool) (arg : Word) (data : List Byte) : Instr :=
  match o with
  | .getbit   => .getbit br idx
  | .setbit   => .setbit br idx val
  | .wrblk    => .wrblk br data
  | .rdblk    => .rdblk br
  | .ldcanon  => .ldcanon br
  | .wrunp    => .wrunp data
  | .rdunp    => .rdunp
  | .pack     => .pack br
  | .unpack   => .unpack br
  | .bitpack  => .bitpack br
  | .step     => .step
  | .eval     => .eval
  | .compress => .compress
  | .strinit  => .strinit arg
  | .pull     => .pull arg
  | .rdstat   => .rdstat
  | .rdrem    => .rdrem

/-! ## The decoder (R65) -/

/-- R65, in its order: opcode, then reserved bits, then BR, then the payload's length. In a word of
FMT_N the mask has already made the BR bits 0, so BR = 3 is reached by the other formats alone. -/
def decode (c : Command) : Except DecodeError Instr :=
  match opcodeOfByte (opcField c.word) with
  | none => .error .illegalCommand
  | some o =>
    if c.word &&& formatMask (opcodeFormat o) ≠ (opcodeByte o).setWidth 32 then .error .illegalCommand
    else
      match brOfField (brField c.word) with
      | none => .error .illegalCommand
      | some br =>
        if c.data.length ≠ opcodeDataLength o then .error .lengthError
        else .ok (assemble o br (idxField c.word) (valField c.word) c.arg c.data)

/-! ## The encoder (R69) -/

/-- The row of R64 an instruction belongs to. -/
def opcodeOf : Instr → Opcode
  | .getbit _ _   => .getbit
  | .setbit _ _ _ => .setbit
  | .wrblk _ _    => .wrblk
  | .rdblk _      => .rdblk
  | .ldcanon _    => .ldcanon
  | .wrunp _      => .wrunp
  | .rdunp        => .rdunp
  | .pack _       => .pack
  | .unpack _     => .unpack
  | .bitpack _    => .bitpack
  | .step         => .step
  | .eval         => .eval
  | .compress     => .compress
  | .strinit _    => .strinit
  | .pull _       => .pull
  | .rdstat       => .rdstat
  | .rdrem        => .rdrem

/-- R69: the word `opcode | br<<8 | idx<<16 | val<<24`. -/
def wordOf (o : Opcode) (br : BitVec 2) (idx : BitVec 8) (val : Bool) : Word :=
  (opcodeByte o).setWidth 32 ||| (br.setWidth 32 <<< 8) ||| (idx.setWidth 32 <<< 16)
    ||| ((BitVec.ofBool val).setWidth 32 <<< 24)

/-- R69: the command of an instruction. Omitted fields are 0 and `arg` defaults to 0. -/
def encode (i : Instr) : Command :=
  match i with
  | .getbit br idx     => ⟨wordOf (opcodeOf i) (fieldOfBr br) idx false, 0, []⟩
  | .setbit br idx val => ⟨wordOf (opcodeOf i) (fieldOfBr br) idx val, 0, []⟩
  | .wrblk br data     => ⟨wordOf (opcodeOf i) (fieldOfBr br) 0 false, 0, data⟩
  | .rdblk br          => ⟨wordOf (opcodeOf i) (fieldOfBr br) 0 false, 0, []⟩
  | .ldcanon br        => ⟨wordOf (opcodeOf i) (fieldOfBr br) 0 false, 0, []⟩
  | .wrunp data        => ⟨wordOf (opcodeOf i) 0 0 false, 0, data⟩
  | .rdunp             => ⟨wordOf (opcodeOf i) 0 0 false, 0, []⟩
  | .pack br           => ⟨wordOf (opcodeOf i) (fieldOfBr br) 0 false, 0, []⟩
  | .unpack br         => ⟨wordOf (opcodeOf i) (fieldOfBr br) 0 false, 0, []⟩
  | .bitpack br        => ⟨wordOf (opcodeOf i) (fieldOfBr br) 0 false, 0, []⟩
  | .step              => ⟨wordOf (opcodeOf i) 0 0 false, 0, []⟩
  | .eval              => ⟨wordOf (opcodeOf i) 0 0 false, 0, []⟩
  | .compress          => ⟨wordOf (opcodeOf i) 0 0 false, 0, []⟩
  | .strinit n         => ⟨wordOf (opcodeOf i) 0 0 false, n, []⟩
  | .pull n            => ⟨wordOf (opcodeOf i) 0 0 false, n, []⟩
  | .rdstat            => ⟨wordOf (opcodeOf i) 0 0 false, 0, []⟩
  | .rdrem             => ⟨wordOf (opcodeOf i) 0 0 false, 0, []⟩

/-- R70: the expansion of each pseudo-instruction. -/
def expandPseudo : Pseudo → List Instr
  | .clrbit br idx => [.setbit br idx false]
  | .ldseed data   => [.wrblk .seed data]
  | .canonseed     => [.ldcanon .seed]
  | .stream data n => [.wrblk .seed data, .strinit n]
  | .oneshot data  => [.wrblk .row data, .compress, .rdblk .cc]

/-! ## The table's words -/

/-- The command whose bits are `w` as opcode_table.json numbers them, every bit from `nbits` on being 0:
the word is bits 31..0, `arg` bits 63..32, and payload byte `k` bits `71+8k..64+8k`. The payload has
the length the opcode requires (R68); a word with no opcode has none. -/
def commandOfTableWord (nbits w : Nat) : Command :=
  let bits := w % 2 ^ nbits
  let word : Word := BitVec.ofNat 32 bits
  let len := match opcodeOfByte (opcField word) with
    | some o => opcodeDataLength o
    | none   => 0
  { word := word
    arg  := BitVec.ofNat 32 (bits / 2 ^ 32)
    data := (List.range len).map fun k => BitVec.ofNat 8 (bits / 2 ^ (64 + 8 * k)) }

/-- The instruction the decoder reads from a table word; none where it refuses the command. -/
def decodeTableWord (nbits w : Nat) : Option Instr :=
  match decode (commandOfTableWord nbits w) with
  | .ok i    => some i
  | .error _ => none

end Sys2Proof
end

