-- ==== Sys2Proof/Machine/State.lean ====
section
/-! DEFINITION. The state of the CORE (R31) with the host's side of the command port, the faults of
R160, and the state after reset (R180). -/

namespace Sys2Proof.Machine

/-- The faults of R160. The CORE TAKES each of them as a next state (`takeFault`, R161) and goes on:
"fatal to that call, not to the process". No step of this model ends in `Host.Outcome.fault`. -/
inductive Fault where
  /-- Code 1. Raised by any command word with an OPC not in the map, a reserved bit set or BR = 3 (R67).
  Safe: it is taken as the spec says and the machine goes on. -/
  | illegalCommand
  /-- Code 2. Raised by GETBIT and SETBIT for IDX in 128..255 (R80, R81). Safe: taken as the spec says. -/
  | rangeError
  /-- Code 3. Raised by any command whose payload has not the required length (R66). Safe: taken as the
  spec says. -/
  | lengthError
  /-- Code 4. Raised by WRUNP for a payload byte above 1 (R84). Safe: taken as the spec says. -/
  | cellValue
  /-- Code 5. Raised by PULL before any STRINIT since reset (R135). Safe: taken as the spec says. -/
  | notInit
  deriving DecidableEq, Repr

/-- Why a step has no meaning. No meaning of this model raises a refusal. -/
inductive Refusal where
  /-- Raised by an arm of `exec` whose command has no meaning yet; there is none. Safe: nothing can be
  proved of a state after it. -/
  | notModelled (mnemonic : String)
  deriving DecidableEq, Repr

/-- The fields of STATUS (R26). Bits [31:8] are hardwired to 0, so nothing holds them; the 32-bit word the
host reads is `statusWord` (Flags.lean). -/
structure Status where
  /-- Bit [0]: a stream has been configured since reset. -/
  init    : Bool
  /-- Bit [1]: the configured stream is unbounded. -/
  unb     : Bool
  /-- Bit [2]: end-of-stream has been signalled for the configured stream. -/
  eos     : Bool
  /-- Bit [3]: some command has faulted since reset. -/
  err     : Bool
  /-- Bits [7:4]: the code of the first fault since reset, 0 if none. -/
  errcode : BitVec 4
  deriving DecidableEq, Repr

/-- The response of a command (R30). -/
structure Response where
  code  : Byte
  value : Word
  bytes : List Byte
  eos   : Bool
  deriving DecidableEq, Repr

/-- The architectural state of R31, `(ROW, CC, SEED, UNP, REM, STATUS)`, and the two lists of the command
port, which are the model's own (log entries 3 and 4): what the host will still do, and the responses
it has received, oldest first. -/
structure State where
  /-- BLK[0], the automaton row (R20, R21). -/
  row       : Block
  /-- BLK[1], the center column (R20, R22). -/
  cc        : Block
  /-- BLK[2], the stream's current seed (R20, R23). -/
  seed      : Block
  /-- The unpacked cell buffer (R24). -/
  unp       : Cells
  /-- The remaining-byte budget (R25). -/
  rem       : Word
  /-- The status register (R26). -/
  status    : Status
  /-- The host's inputs that the CORE has not yet taken, next one first (R188). -/
  pending   : List HostInput
  /-- The responses returned so far, oldest first (R30, R189). -/
  responses : List Response
  deriving DecidableEq, Repr

/-- R180: every state element at the reset value given where it is defined. No input is waiting and no
response has been returned (R182). -/
def State.reset : State where
  row       := 0
  cc        := 0
  seed      := 0
  unp       := Vector.replicate 128 0
  rem       := 0
  status    := { init := false, unb := false, eos := false, err := false, errcode := 0 }
  pending   := []
  responses := []

end Sys2Proof.Machine
end

