-- ==== Sys2Proof/Machine/Flags.lean ====
section
/-! DEFINITION. The STATUS register (R26): the word the host reads, and every way a field of it changes. -/

namespace Sys2Proof.Machine

/-- R26, R138: [0] INIT, [1] UNB, [2] EOS, [3] ERR, [7:4] ERRCODE; bits [31:8] read 0. -/
def statusWord (st : Status) : Word :=
  (BitVec.ofBool st.init).setWidth 32
    ||| ((BitVec.ofBool st.unb).setWidth 32 <<< 1)
    ||| ((BitVec.ofBool st.eos).setWidth 32 <<< 2)
    ||| ((BitVec.ofBool st.err).setWidth 32 <<< 3)
    ||| (st.errcode.setWidth 32 <<< 4)

/-- R160: the code of each fault. -/
def faultCode : Fault → Byte
  | .illegalCommand => 1
  | .rangeError     => 2
  | .lengthError    => 3
  | .cellValue      => 4
  | .notInit        => 5

/-- R161, R162: ERR is set, and ERRCODE keeps the first fault's code. -/
def recordFault (f : Fault) (st : Status) : Status :=
  { st with
    err     := true
    errcode := if st.errcode = 0 then (faultCode f).setWidth 4 else st.errcode }

/-- R134: the status of a stream just configured with the total budget `n`. -/
def configureStatus (n : Word) (st : Status) : Status :=
  { st with init := true, unb := n == 0, eos := false }

end Sys2Proof.Machine
end

