-- ==== Sys2Proof/Config.lean ====
section
/-! DEFINITION. The constants and the two implementation parameters of rule R5 (00_scope.md). -/

namespace Sys2Proof

/-- P_BITPACK_ORDER of R5: which packed byte the cells of group `g` land in (R88). -/
inductive BitpackOrder where
  /-- Group `g` goes to packed byte `g`. -/
  | direct
  /-- Group `g` goes to packed byte `15 - g`. -/
  | tail
  deriving DecidableEq, Repr, Inhabited

/-- P_TRUNC_ORDER of R5: whether a PULL truncates the request to the budget before or after it makes
the blocks (R135). -/
inductive TruncOrder where
  /-- The spec's choice: split the truncated size. -/
  | truncateFirst
  /-- The alternative: split the request, and truncate the bytes afterwards. -/
  | generateThenTruncate
  deriving DecidableEq, Repr, Inhabited

namespace Config

/-- CENTER of R5: the center column, `BLOCK_SIZE/2 - 1`. -/
abbrev center : Nat := 63

/-- GENERATIONS of R5: transitions in one evaluation. -/
abbrev generations : Nat := 128

/-- UNPACKED_CELLS and BLOCK_SIZE of R5. -/
abbrev blockSize : Nat := 128

/-- BLOCK_BYTES of R5. -/
abbrev blockBytes : Nat := 16

/-- P_BITPACK_ORDER is OPEN (R5, D30): an uninterpreted constant, so that whatever is proved of BITPACK
holds for both orders. Log entry 1. -/
opaque bitpackOrder : BitpackOrder

/-- P_TRUNC_ORDER at the value R5, R135 and D13 name as the spec's choice. `pullStream` takes the order as
an argument, so that a claim can be made for both values. Log entry 2 (DESIGN CHOICE). -/
def truncOrder : TruncOrder := .truncateFirst

end Config

end Sys2Proof
end

