-- ==== Sys2Proof/Machine/Operands.lean ====
section
/-! DEFINITION. The forms a block is read and written in (20_memory.md): single bits, the packed bytes,
the unpacked cells, and the two unpacked-to-packed conversions. -/

namespace Sys2Proof.Machine

/-! ## Bits -/

/-- R81: write bit `i` of a block, `(V & ~(1 << i)) | (zext(val) << i)`. -/
def setBlockBit (v : Block) (i : Nat) (b : Bool) : Block :=
  (v &&& ~~~(1#128 <<< i)) ||| ((BitVec.ofBool b).setWidth 128 <<< i)

/-- The block whose bits `0 .. n-1` are `f 0 .. f (n-1)` and whose other bits are 0: the loop
`V <- 0; for c in 0..n-1: V[c] <- f c`. -/
def blockOfBits : Nat → (Nat → Bool) → Block
  | 0, _     => 0
  | n + 1, f => setBlockBit (blockOfBits n f) n (f n)

/-! ## The packed form -/

/-- R41: `packed(V)[j] = V[127-8j : 120-8j]`, for `j` in 0..15. -/
def packed (v : Block) : List Byte :=
  (List.range Config.blockBytes).map fun j => v.extractLsb' (120 - 8 * j) 8

/-- R42: the big-endian value of a byte list. -/
def bigEndian (bytes : List Byte) : Nat :=
  bytes.foldl (fun n b => n * 256 + b.toNat) 0

/-- R42: the block whose packed form is the given 16 bytes. -/
def blockOf (bytes : List Byte) : Block :=
  BitVec.ofNat 128 (bigEndian bytes)

/-! ## The unpacked form -/

/-- Cell `k` of the buffer (R44); the CORE reads cells 0..127 alone. -/
def cellAt (u : Cells) (k : Nat) : Byte := u.toList.getD k 0

/-- The buffer whose cell `k` is `f k`: the loop `for k in 0..127: UNP[k] <- f k`. -/
def cellsOf (f : Nat → Byte) : Cells :=
  ⟨⟨(List.range 128).map f⟩, by simp⟩

/-- R86: block bit `c` is bit 0 of cell `c`. -/
def packCells (u : Cells) : Block :=
  blockOfBits Config.blockSize fun c => (cellAt u c).getLsbD 0

/-- R87: cell `c` is block bit `c`, zero-extended. -/
def unpackBlock (v : Block) : Cells :=
  cellsOf fun c => (BitVec.ofBool (v.getLsbD c)).setWidth 8

/-! ## The saturating conversion -/

/-- R88: `UNP[8g] | ... | UNP[8g+7]`. -/
def groupOr (u : Cells) (g : Nat) : Byte :=
  (List.range 8).foldl (fun any k => any ||| cellAt u (8 * g + k)) 0

/-- R88: the group whose byte is packed byte `j`. Both orders are their own inverse. -/
def groupOfByte (order : BitpackOrder) (j : Nat) : Nat :=
  match order with
  | .direct => j
  | .tail   => 15 - j

/-- R88: a packed byte is 0xFF if any cell of its group is 1, and 0x00 otherwise. -/
def bitpackBytes (order : BitpackOrder) (u : Cells) : List Byte :=
  (List.range Config.blockBytes).map fun j =>
    if groupOr u (groupOfByte order j) = 1 then 0xFF else 0x00

end Sys2Proof.Machine
end

