-- ==== Sys2Proof/Machine/Ops.lean ====
section
/-! DEFINITION. The operations the commands share: the block register file, responses and faults, the
automaton, the compressor, the stream, and the host's side of the port. -/

namespace Sys2Proof.Machine

/-! ## The block register file (R20) -/

/-- `BLK[r]`. -/
def readBlk (br : Br) (s : State) : Block :=
  match br with
  | .row  => s.row
  | .cc   => s.cc
  | .seed => s.seed

/-- `BLK[r] <- v`. -/
def writeBlk (br : Br) (v : Block) (s : State) : State :=
  match br with
  | .row  => { s with row := v }
  | .cc   => { s with cc := v }
  | .seed => { s with seed := v }

/-! ## Ending a command -/

/-- `Respond(value, bytes, eos)` of R7: complete the command with code 0 (R30). -/
def respond (value : Word) (bytes : List Byte) (eos : Bool) (s : State) : State :=
  { s with responses := s.responses ++ [{ code := 0, value := value, bytes := bytes, eos := eos }] }

/-- `raise Fault(code)` of R7: taking a fault as R161 says. Nothing but STATUS.ERR and STATUS.ERRCODE
changes; the machine has no vector, saves nothing and returns from nothing (R166). -/
def takeFault (f : Fault) (s : State) : State :=
  { s with
    status    := recordFault f s.status
    responses := s.responses ++ [{ code := faultCode f, value := 0, bytes := [], eos := false }] }

/-- The fault the decoder's error raises (R65). -/
def faultOfDecode : DecodeError → Fault
  | .illegalCommand => .illegalCommand
  | .lengthError    => .lengthError

/-! ## The automaton (R100 to R103) -/

/-- The transition `T`, as R101 writes it on the whole row: rotating right brings column `c+1` to `c`, the
left neighbour, and rotating left brings column `c-1`, the right neighbour. The whole old row is read,
so the update is simultaneous (R102). -/
def transition (v : Block) : Block :=
  v.rotateRight 1 ^^^ (v ||| v.rotateLeft 1)

/-- The loop of R103 with `k` transitions to go, at index `i`, on the row `r` and the column `c` so far. -/
def evaluateFrom : Nat → Nat → Block → Block → Block × Block
  | 0, _, r, c     => (r, c)
  | k + 1, i, r, c =>
    evaluateFrom k (i + 1) (transition r) (setBlockBit c i ((transition r).getLsbD Config.center))

/-- The evaluation `E` of R103: `(finalRow, centerColumn)`. -/
def evaluate (seedRow : Block) : Block × Block :=
  evaluateFrom Config.generations 0 seedRow 0

/-! ## The compressor (R120) -/

/-- Round 2 of a compress: the evaluation of round 1's final row. Round 1's column is discarded. -/
def compressRounds (seed : Block) : Block × Block :=
  evaluate (evaluate seed).1

/-- The compress function `C`: round 2's center column. -/
def compressBlock (seed : Block) : Block :=
  (compressRounds seed).2

/-! ## The stream (R130 to R135) -/

/-- CANON of R130: only bit 63 is set. -/
def canon : Block := 1#128 <<< Config.center

/-- R132: a request as whole blocks and a remainder. -/
def splitRequest (n : Nat) : Nat × Nat :=
  if n ≤ 16 then (0, n) else (n / 16, n % 16)

/-- The first loop of R133: `k` whole blocks, each becoming the next seed. -/
def produceWhole : Nat → Block → List Byte × Block
  | 0, seed     => ([], seed)
  | k + 1, seed =>
    (packed (compressBlock seed) ++ (produceWhole k (compressBlock seed)).1,
      (produceWhole k (compressBlock seed)).2)

/-- `produce(k, r)` of R133: the bytes, and SEED afterwards. The rest of a partial block is discarded. -/
def produce (k r : Nat) (seed : Block) : List Byte × Block :=
  if r > 0 then
    ((produceWhole k seed).1 ++ (packed (compressBlock (produceWhole k seed).2)).take r,
      compressBlock (produceWhole k seed).2)
  else produceWhole k seed

/-- R135: the bytes a PULL of `n` bytes delivers when the budget allows `eff`, and SEED afterwards, under
each value of P_TRUNC_ORDER. -/
def pullBytes (order : TruncOrder) (n eff : Nat) (seed : Block) : List Byte × Block :=
  match order with
  | .truncateFirst        => produce (splitRequest eff).1 (splitRequest eff).2 seed
  | .generateThenTruncate =>
    ((produce (splitRequest n).1 (splitRequest n).2 seed).1.take eff,
      (produce (splitRequest n).1 (splitRequest n).2 seed).2)

/-- R135: the bytes a PULL of `n` bytes may deliver, `n` for an unbounded stream, else `min(n, REM)`. -/
def effectiveRequest (n : Word) (s : State) : Nat :=
  if s.status.unb then n.toNat else min n.toNat s.rem.toNat

/-- R135: the delivery of a PULL that passed its checks, for either value of P_TRUNC_ORDER. SEED moves on;
a bounded stream's REM goes down by the bytes delivered, and the PULL that brings it to 0 sets
STATUS.EOS and signals (R136). -/
def deliver (order : TruncOrder) (n : Word) (s : State) : State :=
  let eff := effectiveRequest n s
  let out := pullBytes order n.toNat eff s.seed
  let left := s.rem - BitVec.ofNat 32 eff
  if s.status.unb then
    respond 0 out.1 false { s with seed := out.2 }
  else if left = 0 then
    respond 0 out.1 true { s with seed := out.2, rem := left, status := { s.status with eos := true } }
  else
    respond 0 out.1 false { s with seed := out.2, rem := left }

/-- PULL as R135 gives it, for either value of P_TRUNC_ORDER: NOT_INIT before any STRINIT, nothing after
end-of-stream, else the delivery. -/
def pullStream (order : TruncOrder) (n : Word) (s : State) : State :=
  if s.status.init = false then takeFault .notInit s
  else if s.status.unb = false ∧ s.status.eos = true then respond 0 [] false s
  else deliver order n s

/-! ## Reset and the command port -/

/-- R180, R181: reset puts every architectural element at its reset value. What the host will still do and
what it has received are the host's and stay. -/
def resetCore (s : State) : State :=
  { State.reset with pending := s.pending, responses := s.responses }

/-- The host's next input, and the state once the CORE has taken it from the port (R188). -/
def takeInput (s : State) : Option (HostInput × State) :=
  match s.pending with
  | []        => none
  | h :: rest => some (h, { s with pending := rest })

end Sys2Proof.Machine
end

