-- ==== Sys2Proof/Machine/Automaton.lean ====
section
/-! DEFINITION. The automaton commands (41_automaton.md). -/

namespace Sys2Proof.Machine

/-- R104. -/
def execStep (s : State) : Host.Outcome State Fault Refusal :=
  .next (respond 0 [] false { s with row := transition s.row })

/-- R105. -/
def execEval (s : State) : Host.Outcome State Fault Refusal :=
  .next (respond 0 [] false { s with row := (evaluate s.row).1, cc := (evaluate s.row).2 })

end Sys2Proof.Machine
end

