-- ==== Sys2Proof/Machine/BitBlock.lean ====
section
/-! DEFINITION. The BitBlock commands (40_bitblock.md). The decoder's faults come before these (R65). -/

namespace Sys2Proof.Machine

/-- R80. -/
def execGetbit (br : Br) (idx : BitVec 8) (s : State) : Host.Outcome State Fault Refusal :=
  if idx.toNat > 127 then .next (takeFault .rangeError s)
  else .next (respond ((BitVec.ofBool ((readBlk br s).getLsbD idx.toNat)).setWidth 32) [] false s)

/-- R81. -/
def execSetbit (br : Br) (idx : BitVec 8) (val : Bool) (s : State) : Host.Outcome State Fault Refusal :=
  if idx.toNat > 127 then .next (takeFault .rangeError s)
  else .next (respond 0 [] false (writeBlk br (setBlockBit (readBlk br s) idx.toNat val) s))

/-- R82. A payload of another length raises LENGTH_ERROR and writes nothing. -/
def execWrblk (br : Br) (data : List Byte) (s : State) : Host.Outcome State Fault Refusal :=
  if data.length ≠ 16 then .next (takeFault .lengthError s)
  else .next (respond 0 [] false (writeBlk br (blockOf data) s))

/-- R83. -/
def execRdblk (br : Br) (s : State) : Host.Outcome State Fault Refusal :=
  .next (respond 0 (packed (readBlk br s)) false s)

/-- R84. The length is checked first (R163), and every byte before any cell is written. -/
def execWrunp (data : List Byte) (s : State) : Host.Outcome State Fault Refusal :=
  if data.length ≠ 128 then .next (takeFault .lengthError s)
  else if data.any (fun b => decide (b.toNat > 1)) then .next (takeFault .cellValue s)
  else .next (respond 0 [] false { s with unp := cellsOf fun k => data.getD k 0 })

/-- R85. -/
def execRdunp (s : State) : Host.Outcome State Fault Refusal :=
  .next (respond 0 s.unp.toList false s)

/-- R86. -/
def execPack (br : Br) (s : State) : Host.Outcome State Fault Refusal :=
  .next (respond 0 [] false (writeBlk br (packCells s.unp) s))

/-- R87. -/
def execUnpack (br : Br) (s : State) : Host.Outcome State Fault Refusal :=
  .next (respond 0 [] false { s with unp := unpackBlock (readBlk br s) })

/-- R88, with the open parameter P_BITPACK_ORDER. -/
def execBitpack (br : Br) (s : State) : Host.Outcome State Fault Refusal :=
  .next (respond 0 [] false (writeBlk br (blockOf (bitpackBytes Config.bitpackOrder s.unp)) s))

end Sys2Proof.Machine
end

