-- ==== Sys2Proof/Machine/Compressor.lean ====
section
/-! DEFINITION. The compressor command (42_compressor.md). -/

namespace Sys2Proof.Machine

/-- R121: ROW takes round 2's final row and CC its center column. -/
def execCompress (s : State) : Host.Outcome State Fault Refusal :=
  .next (respond 0 [] false { s with row := (compressRounds s.row).1, cc := (compressRounds s.row).2 })

end Sys2Proof.Machine
end

