-- ==== Sys2Proof/Machine/SeedStream.lean ====
section
/-! DEFINITION. The canonical seed and the stream commands (43_seed_stream.md). -/

namespace Sys2Proof.Machine

/-- R131. -/
def execLdcanon (br : Br) (s : State) : Host.Outcome State Fault Refusal :=
  .next (respond 0 [] false (writeBlk br canon s))

/-- R134. A total budget of 0 configures an unbounded stream, whose REM is 0; so REM is `n` either way. -/
def execStrinit (n : Word) (s : State) : Host.Outcome State Fault Refusal :=
  .next (respond 0 [] false { s with rem := n, status := configureStatus n s.status })

/-- R135, with P_TRUNC_ORDER at the spec's choice (log entry 2). -/
def execPull (n : Word) (s : State) : Host.Outcome State Fault Refusal :=
  .next (pullStream Config.truncOrder n s)

/-- R138. -/
def execRdstat (s : State) : Host.Outcome State Fault Refusal :=
  .next (respond (statusWord s.status) [] false s)

/-- R139. -/
def execRdrem (s : State) : Host.Outcome State Fault Refusal :=
  .next (respond s.rem [] false s)

end Sys2Proof.Machine
end

