-- ==== Sys2Proof/Machine/Dispatch.lean ====
section
/-! DEFINITION. One arm per command of R64. -/

namespace Sys2Proof.Machine

def exec (i : Instr) (s : State) : Host.Outcome State Fault Refusal :=
  match i with
  | .getbit br idx => Sys2Proof.Machine.execGetbit br idx s
  | .setbit br idx val => Sys2Proof.Machine.execSetbit br idx val s
  | .wrblk br data => Sys2Proof.Machine.execWrblk br data s
  | .rdblk br => Sys2Proof.Machine.execRdblk br s
  | .ldcanon br => Sys2Proof.Machine.execLdcanon br s
  | .wrunp data => Sys2Proof.Machine.execWrunp data s
  | .rdunp => Sys2Proof.Machine.execRdunp s
  | .pack br => Sys2Proof.Machine.execPack br s
  | .unpack br => Sys2Proof.Machine.execUnpack br s
  | .bitpack br => Sys2Proof.Machine.execBitpack br s
  | .step => Sys2Proof.Machine.execStep s
  | .eval => Sys2Proof.Machine.execEval s
  | .compress => Sys2Proof.Machine.execCompress s
  | .strinit n => Sys2Proof.Machine.execStrinit n s
  | .pull n => Sys2Proof.Machine.execPull n s
  | .rdstat => Sys2Proof.Machine.execRdstat s
  | .rdrem => Sys2Proof.Machine.execRdrem s

end Sys2Proof.Machine
end

