-- ==== Sys2Proof/Machine/Step.lean ====
section
/-! DEFINITION. One step: the CORE takes the host's next input and answers it (R50, R188). -/

namespace Sys2Proof.Machine

/-- A command on the port: decode it and run it, or take the fault the decoder raises (R65). -/
def runCommand (c : Command) (s : State) : Host.Outcome State Fault Refusal :=
  match decode c with
  | .ok i    => exec i s
  | .error e => .next (takeFault (faultOfDecode e) s)

/-- One step. A command runs from start to end within it (R50); reset is a step between two commands, and
a command that reset cuts off leaves no more than the reset (R181). With no input the CORE is idle and
keeps all its state (R172, R182). -/
def step (s : State) : Host.Outcome State Fault Refusal :=
  match takeInput s with
  | none                      => .next s
  | some (.command c, s')     => runCommand c s'
  | some (.reset, s')         => .next (resetCore s')
  | some (.resetDuring _, s') => .next (resetCore s')

/-- `s` with the table word's command as the host's next input, before whatever else it will do. -/
def State.withFetchWord (s : State) (nbits w : Nat) : State :=
  { s with pending := .command (commandOfTableWord nbits w) :: s.pending }

end Sys2Proof.Machine
end

