-- ==== Sys2Proof/Machine/Assembler.lean ====
section
/-! DEFINITION. The assembler of R69 and R70: one line of text as the instructions it stands for. -/

namespace Sys2Proof.Machine

/-! ## Characters and tokens -/

/-- Drop spaces in front. -/
def dropSpaces : List Char → List Char
  | []      => []
  | c :: cs => if c = ' ' then dropSpaces cs else c :: cs

/-- Drop spaces on both sides. -/
def trimSpaces (cs : List Char) : List Char :=
  (dropSpaces (dropSpaces cs).reverse).reverse

/-- The characters before the first `stop`. -/
def takeUntil (stop : Char) (cs : List Char) : List Char :=
  cs.takeWhile (fun c => decide (c ≠ stop))

/-- The pieces between the separators, with the spaces around them dropped. -/
def splitPieces (sep : Char) : List Char → List Char → List (List Char)
  | piece, []      => [trimSpaces piece.reverse]
  | piece, c :: cs => if c = sep then trimSpaces piece.reverse :: splitPieces sep [] cs
                      else splitPieces sep (c :: piece) cs

/-- R69: the operands are separated by commas. -/
def operandsOf (cs : List Char) : List (List Char) :=
  if trimSpaces cs = [] then [] else splitPieces ',' [] cs

/-! ## Operands (R69) -/

/-- `br` is written ROW, CC or SEED. -/
def brOfText (cs : List Char) : Option Br :=
  if cs = ['R', 'O', 'W'] then some .row
  else if cs = ['C', 'C'] then some .cc
  else if cs = ['S', 'E', 'E', 'D'] then some .seed
  else none

/-- A decimal digit. -/
def digitOfChar (c : Char) : Option Nat :=
  if '0'.toNat ≤ c.toNat ∧ c.toNat ≤ '9'.toNat then some (c.toNat - '0'.toNat) else none

/-- A hexadecimal digit, in either case. -/
def hexOfChar (c : Char) : Option Nat :=
  if '0'.toNat ≤ c.toNat ∧ c.toNat ≤ '9'.toNat then some (c.toNat - '0'.toNat)
  else if 'a'.toNat ≤ c.toNat ∧ c.toNat ≤ 'f'.toNat then some (c.toNat - 'a'.toNat + 10)
  else if 'A'.toNat ≤ c.toNat ∧ c.toNat ≤ 'F'.toNat then some (c.toNat - 'A'.toNat + 10)
  else none

/-- A decimal number after the value `n` of the digits already read. -/
def decimalFrom : Nat → List Char → Option Nat
  | n, []      => some n
  | n, c :: cs =>
    match digitOfChar c with
    | some d => decimalFrom (n * 10 + d) cs
    | none   => none

/-- A decimal number below `bound`, of at least one digit. -/
def decimalBelow (bound : Nat) (cs : List Char) : Option Nat :=
  match cs, decimalFrom 0 cs with
  | _ :: _, some n => if n < bound then some n else none
  | _, _           => none

/-- `idx` is a decimal 0..255. -/
def idxOfText (cs : List Char) : Option (BitVec 8) := (decimalBelow (2 ^ 8) cs).map (BitVec.ofNat 8)

/-- `n` is a decimal 0 .. 2^32 - 1. -/
def wordOfText (cs : List Char) : Option Word := (decimalBelow (2 ^ 32) cs).map (BitVec.ofNat 32)

/-- `val` is `0` or `1`. -/
def valOfText (cs : List Char) : Option Bool :=
  if cs = ['0'] then some false else if cs = ['1'] then some true else none

/-- Two hexadecimal digits to a byte. -/
def hexPairs : List Char → Option (List Byte)
  | []           => some []
  | [_]          => none
  | h :: l :: cs =>
    match hexOfChar h, hexOfChar l, hexPairs cs with
    | some a, some b, some bytes => some (BitVec.ofNat 8 (a * 16 + b) :: bytes)
    | _, _, _                    => none

/-- `hex16` is 32 hexadecimal digits, packed byte 0 first. -/
def hex16OfText (cs : List Char) : Option (List Byte) :=
  if cs.length = 32 then hexPairs cs else none

/-- One byte per character `0` or `1`. -/
def cellChars : List Char → Option (List Byte)
  | []      => some []
  | c :: cs =>
    match valOfText [c], cellChars cs with
    | some v, some bytes => some ((BitVec.ofBool v).setWidth 8 :: bytes)
    | _, _               => none

/-- `cells` is 128 characters each `0` or `1`, cell 0 first. -/
def cellsOfText (cs : List Char) : Option (List Byte) :=
  if cs.length = 128 then cellChars cs else none

/-! ## Operand lists. A trailing operand that is left out is 0 (R69, log entry 6). -/

/-- No operand. -/
def noOperands (ops : List (List Char)) (i : Instr) : Option (List Instr) :=
  if ops = [] then some [i] else none

/-- `br`. -/
def brOperand (ops : List (List Char)) (f : Br → Instr) : Option (List Instr) :=
  match ops with
  | []  => some [f .row]
  | [b] => (brOfText b).map fun br => [f br]
  | _   => none

/-- `br, idx`. -/
def brIdxOperands (ops : List (List Char)) (f : Br → BitVec 8 → Instr) : Option (List Instr) :=
  match ops with
  | [b, x] =>
    match brOfText b, idxOfText x with
    | some br, some idx => some [f br idx]
    | _, _              => none
  | _ => brOperand ops fun br => f br 0

/-- `br, idx, val`. -/
def brIdxValOperands (ops : List (List Char)) (f : Br → BitVec 8 → Bool → Instr) : Option (List Instr) :=
  match ops with
  | [b, x, v] =>
    match brOfText b, idxOfText x, valOfText v with
    | some br, some idx, some val => some [f br idx val]
    | _, _, _                     => none
  | _ => brIdxOperands ops fun br idx => f br idx false

/-- `n`. -/
def wordOperand (ops : List (List Char)) (f : Word → Instr) : Option (List Instr) :=
  match ops with
  | []  => some [f 0]
  | [n] => (wordOfText n).map fun w => [f w]
  | _   => none

/-- `hex16`. -/
def hexOperand (ops : List (List Char)) (f : List Byte → Pseudo) : Option (List Instr) :=
  match ops with
  | [x] => (hex16OfText x).map fun data => expandPseudo (f data)
  | _   => none

/-! ## Lines -/

/-- R69 and R70: the instructions of a mnemonic with its operands. -/
def assembleMnemonic (m : String) (ops : List (List Char)) : Option (List Instr) :=
  match m with
  | "GETBIT"    => brIdxOperands ops .getbit
  | "SETBIT"    => brIdxValOperands ops .setbit
  | "WRBLK"     =>
    match ops with
    | [b, x] =>
      match brOfText b, hex16OfText x with
      | some br, some data => some [.wrblk br data]
      | _, _               => none
    | _ => none
  | "RDBLK"     => brOperand ops .rdblk
  | "LDCANON"   => brOperand ops .ldcanon
  | "WRUNP"     =>
    match ops with
    | [x] => (cellsOfText x).map fun data => [.wrunp data]
    | _   => none
  | "RDUNP"     => noOperands ops .rdunp
  | "PACK"      => brOperand ops .pack
  | "UNPACK"    => brOperand ops .unpack
  | "BITPACK"   => brOperand ops .bitpack
  | "STEP"      => noOperands ops .step
  | "EVAL"      => noOperands ops .eval
  | "COMPRESS"  => noOperands ops .compress
  | "STRINIT"   => wordOperand ops .strinit
  | "PULL"      => wordOperand ops .pull
  | "RDSTAT"    => noOperands ops .rdstat
  | "RDREM"     => noOperands ops .rdrem
  | "CLRBIT"    => brIdxOperands ops fun br idx => .setbit br idx false
  | "LDSEED"    => hexOperand ops .ldseed
  | "CANONSEED" => if ops = [] then some (expandPseudo .canonseed) else none
  | "STREAM"    =>
    match ops with
    | [x, n] =>
      match hex16OfText x, wordOfText n with
      | some data, some w => some (expandPseudo (.stream data w))
      | _, _              => none
    | _ => hexOperand ops fun data => .stream data 0
  | "ONESHOT"   => hexOperand ops .oneshot
  | _           => none

/-- R69: one line. `;` starts a comment, and a line with nothing else stands for no instruction. -/
def assembleLine (line : String) : Option (List Instr) :=
  let code := trimSpaces (takeUntil ';' line.toList)
  let name := takeUntil ' ' code
  if code = [] then some []
  else assembleMnemonic (String.ofList name) (operandsOf (code.drop name.length))

/-- R69: the commands of a line, as the host sends them. -/
def commandsOfLine (line : String) : Option (List Command) :=
  (assembleLine line).map fun is => is.map encode

end Sys2Proof.Machine
end

