-- ==== Sys2Proof/Safety.lean ====
section
/-! DEFINITION. What counts as a safe run, and the terms the statements use: the spec's rules written in
its own numbers, independently of the definitions the machine runs on. -/

namespace Sys2Proof.Machine

/-! ## The invariant -/

/-- R24: every cell holds 0 or 1. -/
abbrev CellsBinary (u : Cells) : Prop := ∀ k < 128, (cellAt u k).toNat ≤ 1

/-- R25, R26: an unbounded stream holds REM = 0; before any STRINIT there is no stream; and a configured
bounded stream has ended exactly when REM is 0. -/
abbrev StreamConsistent (st : Status) (rem : Word) : Prop :=
  (st.unb = true → st.init = true ∧ rem = 0 ∧ st.eos = false) ∧
  (st.init = false → st.unb = false ∧ st.eos = false ∧ rem = 0) ∧
  (st.init = true → st.unb = false → (st.eos = true ↔ rem = 0))

/-- R26, R160: ERR is set exactly when ERRCODE holds a code, and the code is one of 1..5. -/
abbrev FaultRecordConsistent (st : Status) : Prop :=
  (st.err = true ↔ st.errcode ≠ 0) ∧ st.errcode.toNat ≤ 5

/-- R30, R160: a fault's response has one of the codes 1..5, value 0, no bytes and no end-of-stream. -/
abbrev ResponseFormed (r : Response) : Prop :=
  r.code.toNat ≤ 5 ∧ (r.code ≠ 0 → r.value = 0 ∧ r.bytes = [] ∧ r.eos = false)

/-- The invariant of the CORE: it holds at reset and every step keeps it. -/
abbrev CoreInvariant (s : State) : Prop :=
  CellsBinary s.unp ∧ StreamConsistent s.status s.rem ∧ FaultRecordConsistent s.status ∧
    ∀ r ∈ s.responses, ResponseFormed r

/-! ## Responses and sequences of commands -/

/-- The response of a command that completes (R30). -/
abbrev okResponse (value : Word) (bytes : List Byte) (eos : Bool) : Response :=
  { code := 0, value := value, bytes := bytes, eos := eos }

/-- R161 in its own numbers: the state after a fault with code `k`. -/
def faulted (k : Byte) (s : State) : State :=
  { s with
    status    := { s.status with
                   err := true
                   errcode := if s.status.errcode = 0 then k.setWidth 4 else s.status.errcode }
    responses := s.responses ++ [{ code := k, value := 0, bytes := [], eos := false }] }

/-- Commands run one after another (R50); a stop ends the sequence. -/
def execAll : List Instr → State → Host.Outcome State Fault Refusal
  | [], s      => .next s
  | i :: is, s =>
    match exec i s with
    | .next t    => execAll is t
    | .fault r   => .fault r
    | .refused r => .refused r

/-- The bytes a list of responses delivered, in order. -/
def deliveredBytes (rs : List Response) : List Byte := rs.flatMap fun r => r.bytes

/-- How many of the responses signalled end-of-stream. -/
def eosSignals (rs : List Response) : Nat := rs.countP fun r => r.eos

/-- The bytes a list of PULLs asks for in all. -/
def requested (ns : List Word) : Nat := (ns.map fun n => n.toNat).sum

/-- The byte counts of the PULLs among some commands, in order. -/
def pullArgs (is : List Instr) : List Word :=
  is.filterMap fun i =>
    match i with
    | .pull n => some n
    | _       => none

/-- The bytes of the responses to the PULLs among some commands: the stream's bytes, without what RDBLK and
RDUNP read out between them. -/
def pulledBytes (is : List Instr) (rs : List Response) : List Byte :=
  (is.zip rs).flatMap fun p =>
    match p.1 with
    | .pull _ => p.2.bytes
    | _       => []

/-! ## Blocks -/

/-- R41: bit `i` of a block in its packed bytes: byte `16 - floor(i/8) - 1`, offset `i mod 8`. -/
def packedBit (bytes : List Byte) (i : Nat) : Bool :=
  (bytes.getD (16 - i / 8 - 1) 0).getLsbD (i % 8)

/-- R100: `new` is the next generation of `old`, cell by cell with the cyclic neighbours `left = c+1` and
`right = c-1`. -/
def IsNextGeneration (old new : Block) : Prop :=
  ∀ c < 128, new.getLsbD c =
    ((old.getLsbD ((c + 1) % 128)) ^^ (old.getLsbD c || old.getLsbD ((c + 127) % 128)))

/-- R142: `packed(B_1) ++ ... ++ packed(B_k)` of the chain `B_1 = C(seed)`, `B_(j+1) = C(B_j)`. -/
def chainBytes (k : Nat) (seed : Block) : List Byte :=
  (List.range k).flatMap fun j => packed (compressBlock^[j + 1] seed)

/-! ## Frames -/

/-- Everything but one block register and the responses is unchanged. -/
def OnlyBlockChanged (br : Br) (s t : State) : Prop :=
  (∀ b, b ≠ br → readBlk b t = readBlk b s) ∧ t.unp = s.unp ∧ t.rem = s.rem ∧ t.status = s.status ∧
    t.pending = s.pending

/-- Everything but the cell buffer and the responses is unchanged. -/
def OnlyCellsChanged (s t : State) : Prop :=
  t.row = s.row ∧ t.cc = s.cc ∧ t.seed = s.seed ∧ t.rem = s.rem ∧ t.status = s.status ∧
    t.pending = s.pending

/-! ## The encoding in the spec's own numbers -/

/-- OPC of R61 as a number. -/
abbrev opcNumber (w : Word) : Nat := w.toNat % 256

/-- R67: the OPC values that R64 does not list. -/
abbrev UnassignedOpcode (o : Nat) : Prop :=
  o = 0x00 ∨ o = 0x06 ∨ o = 0x07 ∨ (0x0D ≤ o ∧ o ≤ 0x0F) ∨ (0x13 ≤ o ∧ o ≤ 0x1F) ∨
    (0x22 ≤ o ∧ o ≤ 0x2F) ∨ 0x32 ≤ o

/-- R62, R64: the bits outside OPC that a word of the given opcode must have 0. -/
abbrev reservedMask (o : Nat) : Word :=
  if o = 0x01 then 0xFF00FC00
  else if o = 0x02 then 0xFE00FC00
  else if o = 0x03 ∨ o = 0x04 ∨ o = 0x05 ∨ o = 0x0A ∨ o = 0x0B ∨ o = 0x0C then 0xFFFFFC00
  else 0xFFFFFF00

/-- R64, R67: the opcodes of FMT_B, FMT_BI and FMT_BIV, whose words have a BR field. -/
abbrev HasBr (o : Nat) : Prop :=
  o = 0x01 ∨ o = 0x02 ∨ o = 0x03 ∨ o = 0x04 ∨ o = 0x05 ∨ o = 0x0A ∨ o = 0x0B ∨ o = 0x0C

/-- R67: the three kinds of word that raise ILLEGAL_COMMAND. -/
abbrev IllegalWord (w : Word) : Prop :=
  UnassignedOpcode (opcNumber w) ∨ w &&& reservedMask (opcNumber w) ≠ 0 ∨
    (HasBr (opcNumber w) ∧ w.toNat / 256 % 4 = 3)

/-- R66: the payload length an opcode requires. -/
abbrev requiredLength (o : Nat) : Nat :=
  if o = 0x03 then 16 else if o = 0x08 then 128 else 0

/-- R160, R163: the code of a command's response, the first check that fails giving the only fault. -/
abbrev commandCode (c : Command) (s : State) : Byte :=
  if IllegalWord c.word then 1
  else if c.data.length ≠ requiredLength (opcNumber c.word) then 3
  else if (opcNumber c.word = 0x01 ∨ opcNumber c.word = 0x02) ∧ c.word.toNat / 2 ^ 16 % 256 > 127 then 2
  else if opcNumber c.word = 0x08 ∧ (∃ b ∈ c.data, b.toNat > 1) then 4
  else if opcNumber c.word = 0x21 ∧ s.status.init = false then 5
  else 0

/-! ## Who reads and who writes (R20, R24) -/

/-- R20, column "readable by": the commands whose result depends on the block register. -/
def readsBlk (br : Br) : Instr → Bool
  | .getbit b _   => b == br
  | .rdblk b      => b == br
  | .unpack b     => b == br
  | .step         => br == .row
  | .eval         => br == .row
  | .compress     => br == .row
  | .pull _       => br == .seed
  | .setbit _ _ _ => false
  | .wrblk _ _    => false
  | .ldcanon _    => false
  | .wrunp _      => false
  | .rdunp        => false
  | .pack _       => false
  | .bitpack _    => false
  | .strinit _    => false
  | .rdstat       => false
  | .rdrem        => false

/-- R20, column "written by": the commands that may change the block register. -/
def writesBlk (br : Br) : Instr → Bool
  | .setbit b _ _ => b == br
  | .wrblk b _    => b == br
  | .ldcanon b    => b == br
  | .pack b       => b == br
  | .bitpack b    => b == br
  | .step         => br == .row
  | .eval         => br == .row || br == .cc
  | .compress     => br == .row || br == .cc
  | .pull _       => br == .seed
  | .getbit _ _   => false
  | .rdblk _      => false
  | .unpack _     => false
  | .wrunp _      => false
  | .rdunp        => false
  | .strinit _    => false
  | .rdstat       => false
  | .rdrem        => false

end Sys2Proof.Machine
end

