-- ==== Sys2Proof/Certificates/Slice0/Obligations.lean ====
section
/-! DEFINITION. The statements for the provers. Each docstring names the rule it formalises. -/

open Sys2Proof Sys2Proof.Machine

/-! ## Reset and the command port -/

/-- R180: at power-on, and whenever the host asserts reset between commands, every element has its reset
value. What the host still has to send and has received is the model's own (log entries 3, 4). -/
def Obligations.ResetPutsEveryElementAtItsResetValue : Prop :=
  (State.reset.row = 0 ∧ State.reset.cc = 0 ∧ State.reset.seed = 0 ∧
    (∀ k < 128, cellAt State.reset.unp k = 0) ∧ State.reset.rem = 0 ∧
    statusWord State.reset.status = 0 ∧ State.reset.pending = [] ∧ State.reset.responses = []) ∧
  ∀ s rest, s.pending = .reset :: rest →
    step s = .next { State.reset with pending := rest, responses := s.responses }

/-- R181: a reset during a command abandons it: no response, no partial effect, every element reset. That
it is one input (log entry 5), and that the inputs after it and the earlier responses stay (log entries
3, 4), is the model's own. -/
def Obligations.ResetAbandonsTheRunningCommand : Prop :=
  ∀ s c rest, s.pending = .resetDuring c :: rest →
    step s = .next { State.reset with pending := rest, responses := s.responses }

/-- R172, R182: with nothing sent, the CORE is idle and keeps all its state. -/
def Obligations.IdleCoreKeepsItsState : Prop :=
  ∀ s, s.pending = [] → step s = .next s

/-- R50, R65: a step takes the host's next command off the port and is the meaning of what it decodes to;
a command the decoder rejects takes its fault. -/
def Obligations.StepRunsTheDecodedCommand : Prop :=
  ∀ s c rest, s.pending = .command c :: rest →
    (∀ i, decode c = .ok i → step s = exec i { s with pending := rest }) ∧
    (decode c = .error .illegalCommand → step s = .next (faulted 1 { s with pending := rest })) ∧
    (decode c = .error .lengthError → step s = .next (faulted 3 { s with pending := rest }))

/-- R30, R164, R187: no step stops the machine, a command returns exactly one response, and nothing else
returns one. -/
def Obligations.EveryCommandGetsExactlyOneResponse : Prop :=
  ∀ s, ∃ t, step s = .next t ∧
    (∀ c rest, s.pending = .command c :: rest →
      t.pending = rest ∧ ∃ r, t.responses = s.responses ++ [r]) ∧
    ((∀ c rest, s.pending ≠ .command c :: rest) → t.responses = s.responses)

/-! ## Encoding -/

/-- Words written out from R61 and R69, one or more of each family, decode to what they stand for; words
that break R62 or R67 and payloads that break R66 do not. -/
def Obligations.DecodesTheWordsOfTheManual : Prop :=
  decode ⟨0x003F0101#32, 0, []⟩ = .ok (.getbit .cc 63) ∧
  decode ⟨0x013F0202#32, 0, []⟩ = .ok (.setbit .seed 63 true) ∧
  decode ⟨0x00000205#32, 0, []⟩ = .ok (.ldcanon .seed) ∧
  decode ⟨0x0000010A#32, 0, []⟩ = .ok (.pack .cc) ∧
  decode ⟨0x00000010#32, 7, []⟩ = .ok .step ∧
  decode ⟨0x00000012#32, 0, []⟩ = .ok .compress ∧
  decode ⟨0x00000021#32, 20, []⟩ = .ok (.pull 20) ∧
  decode ⟨0x00000030#32, 0, []⟩ = .ok .rdstat ∧
  decode ⟨0x00000301#32, 0, []⟩ = .error .illegalCommand ∧
  decode ⟨0x00000110#32, 0, []⟩ = .error .illegalCommand ∧
  decode ⟨0x00000030#32, 0, [0]⟩ = .error .lengthError

/-- R61, R62, R69: every well-formed instruction decodes from its encoding, with every operand. -/
def Obligations.DecodeAfterEncodeGivesTheInstruction : Prop :=
  ∀ i : Instr, i.wellFormed = true → decode (encode i) = .ok i

/-- R62, R63, R65: an accepted command is, bit for bit, the encoding of the one instruction it decodes to;
only an `arg` that is not read is not in it. -/
def Obligations.AcceptedCommandsAreTheirEncodings : Prop :=
  ∀ c i, decode c = .ok i →
    i.wellFormed = true ∧ (encode i).word = c.word ∧ (encode i).data = c.data ∧
      (opcNumber c.word = 0x20 ∨ opcNumber c.word = 0x21 → (encode i).arg = c.arg)

/-- R67: the three kinds of word that raise ILLEGAL_COMMAND, and no other word does; nothing but STATUS.ERR
and STATUS.ERRCODE changes. -/
def Obligations.IllegalWordsRaiseIllegalCommand : Prop :=
  ∀ s c rest, s.pending = .command c :: rest →
    (decode c = .error .illegalCommand ↔ IllegalWord c.word) ∧
    (IllegalWord c.word → step s = .next (faulted 1 { s with pending := rest }))

/-- R66: WRBLK requires 16 bytes, WRUNP 128 and every other opcode none; any other length raises
LENGTH_ERROR and nothing is written. -/
def Obligations.WrongPayloadLengthRaisesLengthError : Prop :=
  ∀ s c rest, s.pending = .command c :: rest → ¬ IllegalWord c.word →
    (c.data.length = requiredLength (opcNumber c.word) ↔ ∃ i, decode c = .ok i) ∧
    (c.data.length ≠ requiredLength (opcNumber c.word) →
      step s = .next (faulted 3 { s with pending := rest }))

/-- R60: `arg` has no effect on any opcode but STRINIT and PULL: neither on what a command decodes to nor
on the step that runs it. -/
def Obligations.ArgIsReadByStrinitAndPullAlone : Prop :=
  ∀ (s : State) (c : Command) a rest, opcNumber c.word ≠ 0x20 → opcNumber c.word ≠ 0x21 →
    decode { c with arg := a } = decode c ∧
    step { s with pending := .command { c with arg := a } :: rest } =
      step { s with pending := .command c :: rest }

/-- R70: ONESHOT answers with the compress of the block it carries. -/
def Obligations.OneshotAnswersTheCompressedBlock : Prop :=
  ∀ s (data : List Byte), data.length = 16 →
    ∃ t, execAll (expandPseudo (.oneshot data)) s = .next t ∧
      t.responses = s.responses ++ [okResponse 0 [] false, okResponse 0 [] false,
        okResponse 0 (packed (compressBlock (blockOf data))) false]

/-- R69, R70: the worked examples of the assembler syntax give their words, and a pseudo-instruction its
expansion. -/
def Obligations.AssemblesTheExamplesOfTheManual : Prop :=
  commandsOfLine "GETBIT CC, 63" = some [⟨0x003F0101#32, 0, []⟩] ∧
  commandsOfLine "SETBIT SEED, 63, 1" = some [⟨0x013F0202#32, 0, []⟩] ∧
  commandsOfLine "SETBIT ROW, 0, 1   ; a comment" = some [⟨0x01000002#32, 0, []⟩] ∧
  commandsOfLine "LDCANON ROW" = some [⟨0x00000005#32, 0, []⟩] ∧
  commandsOfLine "PULL 20" = some [⟨0x00000021#32, 20, []⟩] ∧
  commandsOfLine "CLRBIT ROW, 0" = some [⟨0x00000002#32, 0, []⟩] ∧
  commandsOfLine "GETBIT CC, 256" = none

/-! ## Faults -/

/-- R160, R163: the code of every command's response: the first check that fails, in the order opcode,
reserved bits, BR, length, and the command's own check. -/
def Obligations.FirstFailingCheckGivesTheCode : Prop :=
  ∀ s c rest, s.pending = .command c :: rest →
    ∃ t r, step s = .next t ∧ t.responses = s.responses ++ [r] ∧ r.code = commandCode c s

/-- R161: a fault with code `k` sets ERR, records `k` if ERRCODE is 0, responds `(k, 0, [], 0)` and changes
nothing else; the next command waits on the port as before. -/
def Obligations.FaultChangesOnlyTheFaultRecord : Prop :=
  ∀ s c rest, s.pending = .command c :: rest → commandCode c s ≠ 0 →
    step s = .next (faulted (commandCode c s) { s with pending := rest })

/-- R162: ERR and ERRCODE are sticky over every command, ERRCODE keeps the first fault's code, a later
fault reports its own code in its response, and only reset clears them. -/
def Obligations.FaultRecordIsSticky : Prop :=
  ∀ s t, step s = .next t →
    (∀ c rest, s.pending = .command c :: rest →
      (t.status.err = true ↔ s.status.err = true ∨ commandCode c s ≠ 0) ∧
      t.status.errcode = (if s.status.errcode = 0 then (commandCode c s).setWidth 4 else s.status.errcode) ∧
      ∃ r, t.responses = s.responses ++ [r] ∧ r.code = commandCode c s) ∧
    (∀ rest, s.pending = .reset :: rest → t.status.err = false ∧ t.status.errcode = 0)

/-! ## The invariant -/

/-- R24, R25, R26, R30, R160: the invariant holds at reset. -/
def Obligations.ResetStateMeetsTheInvariant : Prop := CoreInvariant State.reset

/-- R24, R25, R26, R30, R160: cells stay 0 or 1, an unbounded stream keeps REM 0, a bounded stream has ended
exactly when REM is 0, ERR agrees with ERRCODE, and no reserved code is ever recorded or returned. -/
def Obligations.EveryStepKeepsTheInvariant : Prop :=
  ∀ s t, CoreInvariant s → step s = .next t → CoreInvariant t

/-! ## Whole-machine rules -/

/-- R20, R24, R25, R26: who may change each register and each STATUS field, over every command. -/
def Obligations.OnlyTheListedCommandsWriteEachRegister : Prop :=
  ∀ s c rest t, s.pending = .command c :: rest → step s = .next t →
    (∀ br, readBlk br t ≠ readBlk br s → ∃ i, decode c = .ok i ∧ writesBlk br i = true) ∧
    (t.unp ≠ s.unp → ∃ i, decode c = .ok i ∧ ((∃ data, i = .wrunp data) ∨ ∃ br, i = .unpack br)) ∧
    (t.rem ≠ s.rem → ∃ n, decode c = .ok (.strinit n) ∨ decode c = .ok (.pull n)) ∧
    (t.status.init ≠ s.status.init → t.status.init = true ∧ ∃ n, decode c = .ok (.strinit n)) ∧
    (t.status.unb ≠ s.status.unb → ∃ n, decode c = .ok (.strinit n) ∧ t.status.unb = (n == 0)) ∧
    (t.status.eos ≠ s.status.eos →
      (t.status.eos = false ∧ ∃ n, decode c = .ok (.strinit n)) ∨
      (t.status.eos = true ∧ t.rem = 0 ∧ ∃ n, decode c = .ok (.pull n))) ∧
    (t.status.err ≠ s.status.err → t.status.err = true ∧ commandCode c s ≠ 0) ∧
    (t.status.errcode ≠ s.status.errcode → s.status.errcode = 0 ∧ commandCode c s ≠ 0 ∧
      t.status.errcode = (commandCode c s).setWidth 4)

/-- R20, column "readable by", and R21, R22: a command that R20 does not list as a reader of a block
register gives the same response and leaves the same everything else, whatever that register holds. The
register itself keeps what it holds where the command does not write it, ends the same where the command
writes all of it, and under SETBIT keeps every bit but the addressed one. -/
def Obligations.UnlistedCommandsDoNotReadTheBlock : Prop :=
  ∀ i br v s, readsBlk br i = false →
    ∃ t t', exec i s = .next t ∧ exec i (writeBlk br v s) = .next t' ∧
      writeBlk br 0 t' = writeBlk br 0 t ∧
      (writesBlk br i = false ∨ i.wellFormed = false → t' = writeBlk br v t) ∧
      (writesBlk br i = true → i.wellFormed = true → (∀ idx val, i ≠ .setbit br idx val) → t' = t) ∧
      ∀ idx val, i = .setbit br idx val → ∀ j < 128,
        (readBlk br t').getLsbD j = if j = idx.toNat then val else v.getLsbD j

/-- R48: GETBIT, RDBLK, RDUNP, RDSTAT and RDREM have no side effect, and a second one answers the same. -/
def Obligations.ReadCommandsAreIdempotent : Prop :=
  ∀ s i, ((∃ br, ∃ idx : BitVec 8, idx.toNat ≤ 127 ∧ i = .getbit br idx) ∨ (∃ br, i = .rdblk br) ∨
      i = .rdunp ∨ i = .rdstat ∨ i = .rdrem) →
    ∃ r, r.code = 0 ∧ exec i s = .next { s with responses := s.responses ++ [r] } ∧
      execAll [i, i] s = .next { s with responses := s.responses ++ [r, r] }

/-! ## BitBlock commands -/

/-- R41, R42: the two directions of the packed form, its byte slices, the place of each bit and its value. -/
def Obligations.PackedFormIsTheBigEndianSerialization : Prop :=
  (∀ V : Block, (packed V).length = 16 ∧ blockOf (packed V) = V ∧
    (∀ j < 16, (packed V).getD j 0 = V.extractLsb' (120 - 8 * j) 8) ∧
    ∀ i < 128, packedBit (packed V) i = V.getLsbD i) ∧
  ∀ b : List Byte, b.length = 16 →
    packed (blockOf b) = b ∧
      (blockOf b).toNat = ((List.range 16).map fun j => (b.getD j 0).toNat * 2 ^ (8 * (15 - j))).sum

/-- R80: GETBIT responds with the addressed bit of the packed bytes, for every index up to 127, and changes
nothing; above that it raises RANGE_ERROR. -/
def Obligations.GetbitRespondsTheAddressedBit : Prop :=
  ∀ s br (idx : BitVec 8),
    (idx.toNat ≤ 127 → exec (.getbit br idx) s = .next { s with
      responses := s.responses ++
        [okResponse (if packedBit (packed (readBlk br s)) idx.toNat then 1 else 0) [] false] }) ∧
    (idx.toNat > 127 → exec (.getbit br idx) s = .next (faulted 2 s))

/-- R81: SETBIT writes the addressed bit and no other; above 127 it raises RANGE_ERROR and writes nothing. -/
def Obligations.SetbitWritesOnlyTheAddressedBit : Prop :=
  ∀ s br (idx : BitVec 8) val,
    (idx.toNat ≤ 127 → ∃ t, exec (.setbit br idx val) s = .next t ∧
      (∀ i < 128, (readBlk br t).getLsbD i =
        if i = idx.toNat then val else (readBlk br s).getLsbD i) ∧
      OnlyBlockChanged br s t ∧ t.responses = s.responses ++ [okResponse 0 [] false]) ∧
    (idx.toNat > 127 → exec (.setbit br idx val) s = .next (faulted 2 s))

/-- R89: the bit round trip. -/
def Obligations.SetbitThenGetbitRespondsTheBit : Prop :=
  ∀ s br (idx : BitVec 8) val, idx.toNat ≤ 127 →
    ∃ t, execAll [.setbit br idx val, .getbit br idx] s = .next t ∧
      t.responses = s.responses ++ [okResponse 0 [] false, okResponse (if val then 1 else 0) [] false] ∧
      ∀ i < 128, i ≠ idx.toNat → (readBlk br t).getLsbD i = (readBlk br s).getLsbD i

/-- R82, R41: WRBLK loads bit `i` from byte `15 - floor(i/8)`, offset `i mod 8`; with another length it
raises LENGTH_ERROR and writes nothing. -/
def Obligations.WrblkLoadsThePackedBytes : Prop :=
  ∀ s br (data : List Byte),
    (data.length = 16 → ∃ t, exec (.wrblk br data) s = .next t ∧
      (∀ i < 128, (readBlk br t).getLsbD i = packedBit data i) ∧
      OnlyBlockChanged br s t ∧ t.responses = s.responses ++ [okResponse 0 [] false]) ∧
    (data.length ≠ 16 → exec (.wrblk br data) s = .next (faulted 3 s))

/-- R83, R41: RDBLK responds with the 16 packed bytes and changes nothing. -/
def Obligations.RdblkRespondsThePackedBytes : Prop :=
  ∀ s br, ∃ bytes : List Byte, bytes.length = 16 ∧
    (∀ i < 128, packedBit bytes i = (readBlk br s).getLsbD i) ∧
    exec (.rdblk br) s = .next { s with responses := s.responses ++ [okResponse 0 bytes false] }

/-- R84: WRUNP loads the 128 cells; a byte that is not 0 or 1 raises CELL_VALUE and another length
LENGTH_ERROR, and then no cell is written. -/
def Obligations.WrunpLoadsTheCells : Prop :=
  ∀ s (data : List Byte),
    (data.length = 128 → (∀ b ∈ data, b.toNat ≤ 1) → ∃ t, exec (.wrunp data) s = .next t ∧
      t.unp.toList = data ∧ OnlyCellsChanged s t ∧
      t.responses = s.responses ++ [okResponse 0 [] false]) ∧
    (data.length = 128 → (∃ b ∈ data, b.toNat > 1) → exec (.wrunp data) s = .next (faulted 4 s)) ∧
    (data.length ≠ 128 → exec (.wrunp data) s = .next (faulted 3 s))

/-- R85: RDUNP responds with the 128 cells, cell 0 first, and changes nothing; where the cells are 0 or 1
(the invariant), so is every byte. -/
def Obligations.RdunpRespondsTheCells : Prop :=
  ∀ s, ∃ bytes : List Byte, bytes.length = 128 ∧ (∀ k < 128, bytes.getD k 0 = cellAt s.unp k) ∧
    exec .rdunp s = .next { s with responses := s.responses ++ [okResponse 0 bytes false] } ∧
    (CellsBinary s.unp → ∀ b ∈ bytes, b = 0 ∨ b = 1)

/-- R86, R45: PACK makes cell `c` the block's bit `c`. -/
def Obligations.PackMakesCellsBits : Prop :=
  ∀ s br, ∃ t, exec (.pack br) s = .next t ∧
    (∀ c < 128, (readBlk br t).getLsbD c = (cellAt s.unp c).getLsbD 0) ∧
    OnlyBlockChanged br s t ∧ t.responses = s.responses ++ [okResponse 0 [] false]

/-- R87, R45: UNPACK makes the block's bit `c` cell `c`. -/
def Obligations.UnpackMakesBitsCells : Prop :=
  ∀ s br, ∃ t, exec (.unpack br) s = .next t ∧
    (∀ c < 128, cellAt t.unp c = if (readBlk br s).getLsbD c then 1 else 0) ∧
    OnlyCellsChanged s t ∧ t.responses = s.responses ++ [okResponse 0 [] false]

/-- R90: UNPACK then PACK, PACK then UNPACK while the cells are 0 or 1, and WRBLK then RDBLK. -/
def Obligations.PackAndTransferRoundTrips : Prop :=
  ∀ s br,
    (∃ t, execAll [.unpack br, .pack br] s = .next t ∧ readBlk br t = readBlk br s) ∧
    (CellsBinary s.unp → ∃ t, execAll [.pack br, .unpack br] s = .next t ∧ t.unp = s.unp) ∧
    (∀ data : List Byte, data.length = 16 → ∃ t, execAll [.wrblk br data, .rdblk br] s = .next t ∧
      t.responses = s.responses ++ [okResponse 0 [] false, okResponse 0 data false])

/-- R88: BITPACK makes a packed byte 0xFF where a cell of its group is 1 and 0x00 where none is, with the
groups in the order of the open parameter; and the order does not matter for symmetric groups. -/
def Obligations.BitpackSaturatesEachGroup : Prop :=
  ∀ s br, CellsBinary s.unp →
    (∃ t, exec (.bitpack br) s = .next t ∧
      (∀ g < 16, ∀ j, j = (match Config.bitpackOrder with | .direct => g | .tail => 15 - g) →
        ((∃ k < 8, cellAt s.unp (8 * g + k) = 1) → (packed (readBlk br t)).getD j 0 = 0xFF) ∧
        ((∀ k < 8, cellAt s.unp (8 * g + k) = 0) → (packed (readBlk br t)).getD j 0 = 0x00)) ∧
      OnlyBlockChanged br s t ∧ t.responses = s.responses ++ [okResponse 0 [] false]) ∧
    ((∀ g < 16, ((∃ k < 8, cellAt s.unp (8 * g + k) = 1) ↔
        ∃ k < 8, cellAt s.unp (8 * (15 - g) + k) = 1)) →
      bitpackBytes .direct s.unp = bitpackBytes .tail s.unp)

/-! ## The automaton and the compressor -/

/-- R100, R101, R102: STEP gives every column `left ^ (middle | right)` of the OLD row, with cyclic
neighbours, which is the rotate form; nothing else changes (R104). -/
def Obligations.StepAppliesRule30ToEveryCell : Prop :=
  ∀ s, ∃ new, exec .step s = .next
      { s with row := new, responses := s.responses ++ [okResponse 0 [] false] } ∧
    (∀ c < 128, new.getLsbD c =
      ((s.row.getLsbD ((c + 1) % 128)) ^^ (s.row.getLsbD c || s.row.getLsbD ((c + 127) % 128)))) ∧
    new = s.row.rotateRight 1 ^^^ (s.row ||| s.row.rotateLeft 1)

/-- R103, R105: EVAL runs 128 generations, leaves the last in ROW, and bit `i` of CC is column 63 after
transition `i+1`; nothing else changes. -/
def Obligations.EvalRecordsColumn63OfEachGeneration : Prop :=
  ∀ s, ∃ g : Nat → Block, g 0 = s.row ∧ (∀ i < 128, IsNextGeneration (g i) (g (i + 1))) ∧
    ∃ center : Block, (∀ i < 128, center.getLsbD i = (g (i + 1)).getLsbD 63) ∧
      exec .eval s = .next
        { s with row := g 128, cc := center, responses := s.responses ++ [okResponse 0 [] false] }

/-- R120, R121: COMPRESS runs 256 generations, leaves the last in ROW, and CC is column 63 of the second
128 of them: round 1's column is no part of the result; nothing else changes. -/
def Obligations.CompressOutputsRoundTwosCenterColumn : Prop :=
  ∀ s, ∃ g : Nat → Block, g 0 = s.row ∧ (∀ i < 256, IsNextGeneration (g i) (g (i + 1))) ∧
    ∃ center : Block, (∀ i < 128, center.getLsbD i = (g (128 + i + 1)).getLsbD 63) ∧
      center = compressBlock s.row ∧
      exec .compress s = .next
        { s with row := g 256, cc := center, responses := s.responses ++ [okResponse 0 [] false] }

/-- R121, corner cases: COMPRESS leaves what EVAL followed by EVAL leaves, with one response for two. -/
def Obligations.CompressEqualsTwoEvals : Prop :=
  ∀ s, ∃ t u, execAll [.eval, .eval] s = .next t ∧ exec .compress s = .next u ∧
    { t with responses := u.responses } = u ∧ t.responses = u.responses ++ [okResponse 0 [] false]

/-! ## The seed and the stream -/

/-- R130, R131: LDCANON leaves bit 63 as the only set bit, whatever the register held; the packed and the
unpacked form of the canonical seed. -/
def Obligations.LdcanonLoadsTheCanonicalSeed : Prop :=
  ∀ s br, ∃ t, exec (.ldcanon br) s = .next t ∧
    (∀ i < 128, (readBlk br t).getLsbD i = decide (i = 63)) ∧
    packed (readBlk br t) = [0, 0, 0, 0, 0, 0, 0, 0, 0x80, 0, 0, 0, 0, 0, 0, 0] ∧
    (∀ k < 128, cellAt (unpackBlock (readBlk br t)) k = if k = 63 then 1 else 0) ∧
    OnlyBlockChanged br s t ∧ t.responses = s.responses ++ [okResponse 0 [] false]

/-- R132: the split of a request; 16 as (0, 16) gives the same bytes and seed as (1, 0). -/
def Obligations.RequestSplitsIntoBlocksAndRemainder : Prop :=
  (∀ n, (n ≤ 16 → splitRequest n = (0, n)) ∧ (16 < n → splitRequest n = (n / 16, n % 16)) ∧
    (splitRequest n).1 * 16 + (splitRequest n).2 = n) ∧
  ∀ seed, produce 0 16 seed = produce 1 0 seed

/-- R133: `produce(k, r)` delivers the chain of compresses, packed byte 0 first, the last block cut to `r`
bytes, and SEED is the last block computed. -/
def Obligations.ProduceChainsEveryBlock : Prop :=
  (∀ k r seed, r ≤ 16 →
    produce k r seed =
      ((chainBytes (k + if r > 0 then 1 else 0) seed).take (16 * k + r),
        compressBlock^[k + if r > 0 then 1 else 0] seed)) ∧
  ∀ V : Block, (packed V).getD 0 0 = V.extractLsb' 120 8

/-- R134: STRINIT configures the stream and clears EOS; a total budget of 0 is unbounded. -/
def Obligations.StrinitConfiguresTheStream : Prop :=
  ∀ s n, exec (.strinit n) s = .next { s with
    rem := if n = 0 then 0 else n
    status := { s.status with init := true, unb := if n = 0 then true else false, eos := false }
    responses := s.responses ++ [okResponse 0 [] false] }

/-- R135, P_TRUNC_ORDER = TRUNCATE_FIRST, the spec's choice (log entry 2): a PULL on a live stream delivers
`eff` bytes of the chain, moves SEED by `ceil(eff/16)` blocks, takes `eff` off a bounded REM, and
signals end-of-stream exactly when that leaves 0; nothing else changes. -/
def Obligations.PullDeliversTheChain : Prop :=
  ∀ s n, s.status.init = true → (s.status.unb = true ∨ s.status.eos = false) →
    ∀ eff, eff = (if s.status.unb then n.toNat else min n.toNat s.rem.toNat) →
      exec (.pull n) s = .next { s with
        seed := compressBlock^[(eff + 15) / 16] s.seed
        rem := if s.status.unb then s.rem else s.rem - BitVec.ofNat 32 eff
        status := { s.status with
                      eos := if s.status.unb then s.status.eos else decide (s.rem.toNat = eff) }
        responses := s.responses ++ [okResponse 0 ((chainBytes ((eff + 15) / 16) s.seed).take eff)
          (if s.status.unb then false else decide (s.rem.toNat = eff))] }

/-- R135, exceptions and corner cases: NOT_INIT before any STRINIT; nothing after end-of-stream; and a
request of 0 bytes on a configured stream, where the invariant holds, changes nothing. -/
def Obligations.PullDeliversNothingInTheCornerCases : Prop :=
  ∀ s n,
    (s.status.init = false → exec (.pull n) s = .next (faulted 5 s)) ∧
    (s.status.init = true → s.status.unb = false → s.status.eos = true → exec (.pull n) s =
      .next { s with responses := s.responses ++ [okResponse 0 [] false] }) ∧
    (CoreInvariant s → s.status.init = true → exec (.pull 0) s =
      .next { s with responses := s.responses ++ [okResponse 0 [] false] })

/-- R135, D13: the two values of P_TRUNC_ORDER give the same response and the same state but for SEED, which
under GENERATE_THEN_TRUNCATE is the last block of the whole request. -/
def Obligations.TruncationOrderAffectsOnlySeed : Prop :=
  ∀ s n, s.status.init = true → (s.status.unb = true ∨ s.status.eos = false) →
    pullStream .generateThenTruncate n s =
      { pullStream .truncateFirst n s with seed := compressBlock^[(n.toNat + 15) / 16] s.seed }

/-- R136: end-of-stream is signalled in the response of the PULL that brings a bounded stream's REM to 0 and
in no other, and STATUS.EOS then stays 1 until the next STRINIT or reset. -/
def Obligations.EosIsSignalledByTheLastPullAlone : Prop :=
  ∀ s c rest t r, CoreInvariant s → s.pending = .command c :: rest → step s = .next t →
    t.responses = s.responses ++ [r] →
    (r.eos = true ↔ s.status.init = true ∧ s.status.unb = false ∧ s.rem ≠ 0 ∧ t.rem = 0 ∧
      ∃ n, decode c = .ok (.pull n)) ∧
    (r.eos = true → t.status.eos = true) ∧
    (s.status.eos = true → r.eos = false ∧ (t.status.eos = true ∨ ∃ n, decode c = .ok (.strinit n)))

/-- R137, R135: a PULL never delivers more than the bytes requested nor, on a bounded stream, more than REM,
and on an unbounded stream exactly what is requested. -/
def Obligations.PullNeverDeliversMoreThanRequested : Prop :=
  ∀ s n, ∃ t r, exec (.pull n) s = .next t ∧ t.responses = s.responses ++ [r] ∧
    r.bytes.length ≤ n.toNat ∧ (s.status.unb = false → r.bytes.length ≤ s.rem.toNat) ∧
    (r.code = 0 → s.status.unb = true → r.bytes.length = n.toNat)

/-- R26, R138: the STATUS word RDSTAT answers with, field by field; bits [31:8] read 0. -/
def Obligations.RdstatRespondsTheStatusFields : Prop :=
  ∀ s, ∃ v : Word,
    exec .rdstat s = .next { s with responses := s.responses ++ [okResponse v [] false] } ∧
    v.getLsbD 0 = s.status.init ∧ v.getLsbD 1 = s.status.unb ∧ v.getLsbD 2 = s.status.eos ∧
    v.getLsbD 3 = s.status.err ∧ v.extractLsb' 4 4 = s.status.errcode ∧
    ∀ i, 8 ≤ i → v.getLsbD i = false

/-- R139: RDREM answers with REM, which after a STRINIT is the total budget; nothing else changes. -/
def Obligations.RdremRespondsTheRemainingBudget : Prop :=
  ∀ s, exec .rdrem s = .next { s with responses := s.responses ++ [okResponse s.rem [] false] } ∧
    ∀ n, ∃ t, execAll [.strinit n, .rdrem] s = .next t ∧
      t.responses = s.responses ++ [okResponse 0 [] false, okResponse n [] false]

/-! ## Streams -/

/-- R140: with UNB = 1 no PULL sets EOS and none signals, however many bytes have been delivered; and on a
configured stream every byte requested is delivered. -/
def Obligations.UnboundedStreamNeverEnds : Prop :=
  ∀ s (ns : List Word), s.status.unb = true →
    ∃ t rs, execAll (ns.map .pull) s = .next t ∧ t.responses = s.responses ++ rs ∧
      (∀ r ∈ rs, r.eos = false) ∧ t.status.eos = s.status.eos ∧ t.rem = s.rem ∧
      (s.status.init = true → (∀ r ∈ rs, r.code = 0) ∧
        (deliveredBytes rs).length = requested ns ∧ t.status = s.status)

/-- R141, R136: a bounded stream of budget `N` delivers exactly `min(N, requested)` bytes over all its
PULLs, whatever their sizes, and signals end-of-stream once if they request at least `N` and never
otherwise; ROW, CC and UNP are untouched. -/
def Obligations.BoundedStreamDeliversItsExactTotal : Prop :=
  ∀ s N (ns : List Word), N ≠ 0 →
    ∃ t rs, execAll (.strinit N :: ns.map .pull) s = .next t ∧
      t.responses = s.responses ++ okResponse 0 [] false :: rs ∧ rs.length = ns.length ∧
      (∀ r ∈ rs, r.code = 0) ∧
      (deliveredBytes rs).length = min N.toNat (requested ns) ∧
      t.rem.toNat = N.toNat - requested ns ∧
      eosSignals rs = (if N.toNat ≤ requested ns then 1 else 0) ∧
      t.row = s.row ∧ t.cc = s.cc ∧ t.unp = s.unp

/-- R141, R136: the same exact total and the same one signal when any other commands but STRINIT, faulting
ones among them, stand between the PULLs. -/
def Obligations.OtherCommandsDoNotDisturbTheBoundedTotal : Prop :=
  ∀ s N (is : List Instr), N ≠ 0 → (∀ n, Instr.strinit n ∉ is) →
    ∃ t rs, execAll (.strinit N :: is) s = .next t ∧
      t.responses = s.responses ++ okResponse 0 [] false :: rs ∧ rs.length = is.length ∧
      (pulledBytes is rs).length = min N.toNat (requested (pullArgs is)) ∧
      t.rem.toNat = N.toNat - requested (pullArgs is) ∧
      eosSignals rs = (if N.toNat ≤ requested (pullArgs is) then 1 else 0)

/-- R141: two runs from equal SEED with equal STRINIT and equal requests get identical responses and leave
equal SEED, whatever else the two states hold. -/
def Obligations.EqualSeedsGiveEqualStreams : Prop :=
  ∀ s s' N (ns : List Word), s.seed = s'.seed →
    ∃ t t' rs, execAll (.strinit N :: ns.map .pull) s = .next t ∧
      execAll (.strinit N :: ns.map .pull) s' = .next t' ∧
      t.responses = s.responses ++ rs ∧ t'.responses = s'.responses ++ rs ∧
      t.seed = t'.seed ∧ t.rem = t'.rem

/-- R142, with the total of R135 and R141: where every PULL but the last delivers, or asks for, a multiple
of 16 bytes, the stream is the first bytes of `packed(B_1) ++ packed(B_2) ++ ...`, as many as are
requested and the budget allows. -/
def Obligations.WholeBlockPullsDeliverTheChain : Prop :=
  ∀ s N (ns : List Word) m total,
    total = (if N = 0 then requested (ns ++ [m]) else min N.toNat (requested (ns ++ [m]))) →
      ∃ t rs, execAll (.strinit N :: (ns ++ [m]).map .pull) s = .next t ∧
        t.responses = s.responses ++ okResponse 0 [] false :: rs ∧ rs.length = ns.length + 1 ∧
        ((∀ r ∈ rs.dropLast, r.bytes.length % 16 = 0) ∨ (∀ n ∈ ns, n.toNat % 16 = 0) →
          deliveredBytes rs = (chainBytes total s.seed).take total)

/-- R121, R183: the all-zero block is a fixed point of the compress function, so a stream from it delivers
zero bytes only. -/
def Obligations.ZeroSeedStreamsOnlyZeroBytes : Prop :=
  ∀ s N (ns : List Word), s.seed = 0 →
    ∃ t rs, execAll (.strinit N :: ns.map .pull) s = .next t ∧ t.responses = s.responses ++ rs ∧
      (∀ b ∈ deliveredBytes rs, b = 0) ∧ t.seed = 0
end

