-- ==== Sys2Proof/Laws/PerInstr.lean ====
section
/-! SUPPORT. Families of statements about each instruction as a piece of encoding (LAWS.json). -/

namespace Sys2Proof.Laws

/-- Family EncodedLength (R66): the encoding of a well-formed instruction carries the payload its opcode
requires. -/
def EncodedLength.Statement (i : Instr) : Prop :=
  i.wellFormed = true → (encode i).data.length = opcodeDataLength (opcodeOf i)

theorem EncodedLength.getbit (br : Br) (idx : BitVec 8) : EncodedLength.Statement (.getbit br idx) :=
  fun _ => rfl
theorem EncodedLength.setbit (br : Br) (idx : BitVec 8) (val : Bool) :
    EncodedLength.Statement (.setbit br idx val) := fun _ => rfl
theorem EncodedLength.wrblk (br : Br) (data : List Byte) : EncodedLength.Statement (.wrblk br data) :=
  fun h => by simpa [Instr.wellFormed, encode, opcodeDataLength, opcodeOf] using h
theorem EncodedLength.rdblk (br : Br) : EncodedLength.Statement (.rdblk br) := fun _ => rfl
theorem EncodedLength.ldcanon (br : Br) : EncodedLength.Statement (.ldcanon br) := fun _ => rfl
theorem EncodedLength.wrunp (data : List Byte) : EncodedLength.Statement (.wrunp data) :=
  fun h => by simpa [Instr.wellFormed, encode, opcodeDataLength, opcodeOf] using h
theorem EncodedLength.rdunp : EncodedLength.Statement .rdunp := fun _ => rfl
theorem EncodedLength.pack (br : Br) : EncodedLength.Statement (.pack br) := fun _ => rfl
theorem EncodedLength.unpack (br : Br) : EncodedLength.Statement (.unpack br) := fun _ => rfl
theorem EncodedLength.bitpack (br : Br) : EncodedLength.Statement (.bitpack br) := fun _ => rfl
theorem EncodedLength.step : EncodedLength.Statement .step := fun _ => rfl
theorem EncodedLength.eval : EncodedLength.Statement .eval := fun _ => rfl
theorem EncodedLength.compress : EncodedLength.Statement .compress := fun _ => rfl
theorem EncodedLength.strinit (n : Word) : EncodedLength.Statement (.strinit n) := fun _ => rfl
theorem EncodedLength.pull (n : Word) : EncodedLength.Statement (.pull n) := fun _ => rfl
theorem EncodedLength.rdstat : EncodedLength.Statement .rdstat := fun _ => rfl
theorem EncodedLength.rdrem : EncodedLength.Statement .rdrem := fun _ => rfl

/-! ## The fields of an encoded word -/

/-- R61: the OPC field of a word put together from its fields. -/
theorem opcField_wordOf (o : Opcode) (br : BitVec 2) (idx : BitVec 8) (val : Bool) :
    opcField (wordOf o br idx val) = opcodeByte o := by
  unfold opcField wordOf
  ext i hi
  simp [BitVec.getElem_extractLsb', hi]
  have h1 : i < 16 := by omega
  have h2 : i < 24 := by omega
  have h3 : i < 32 := by omega
  simp [h1, h2, h3]

/-- R61: the BR field of such a word. -/
theorem brField_wordOf (o : Opcode) (br : BitVec 2) (idx : BitVec 8) (val : Bool) :
    brField (wordOf o br idx val) = br := by
  unfold brField wordOf
  ext i hi
  have h0 : 8 + i < 16 := by omega
  have h1 : 8 + i < 24 := by omega
  have h2 : 8 + i < 32 := by omega
  simp [BitVec.getElem_extractLsb', h0, h1, h2]
  exact BitVec.getLsbD_eq_getElem hi

/-- R61: the IDX field of such a word. -/
theorem idxField_wordOf (o : Opcode) (br : BitVec 2) (idx : BitVec 8) (val : Bool) :
    idxField (wordOf o br idx val) = idx := by
  unfold idxField wordOf
  ext i hi
  have h1 : 16 + i < 24 := by omega
  have h2 : 16 + i < 32 := by omega
  have h3 : (opcodeByte o).getLsbD (16 + i) = false := BitVec.getLsbD_of_ge _ _ (by omega)
  have h5 : br.getLsbD (16 + i - 8) = false := BitVec.getLsbD_of_ge _ _ (by omega)
  simp [BitVec.getElem_extractLsb', h1, h2, h3, h5]
  exact BitVec.getLsbD_eq_getElem hi

/-- R61: the VAL bit of such a word. -/
theorem valField_wordOf (o : Opcode) (br : BitVec 2) (idx : BitVec 8) (val : Bool) :
    valField (wordOf o br idx val) = val := by
  simp [valField, wordOf]

/-- R61: the register named by a register's own field. -/
theorem brOfField_fieldOfBr (br : Br) : brOfField (fieldOfBr br) = some br := by cases br <;> rfl

/-- R64: the row of a row's own OPC value. -/
theorem opcodeOfByte_opcodeByte (o : Opcode) : opcodeOfByte (opcodeByte o) = some o := by cases o <;> rfl

end Sys2Proof.Laws
end

