-- ==== Sys2Proof/Laws/Decode.lean ====
section
/-! SUPPORT. The decoder's fields and map as numbers, and its four outcomes said once. -/

namespace Sys2Proof.Laws

open Sys2Proof.Machine

/-- The OPC field as a number. -/
theorem toNat_opcField (w : Word) : (opcField w).toNat = opcNumber w := by
  simp [opcField, opcNumber]

/-- The BR field as a number. -/
theorem toNat_brField (w : Word) : (brField w).toNat = w.toNat / 256 % 4 := by
  simp [brField, Nat.shiftRight_eq_div_pow]

/-- The IDX field as a number. -/
theorem toNat_idxField (w : Word) : (idxField w).toNat = w.toNat / 2 ^ 16 % 256 := by
  simp [idxField, Nat.shiftRight_eq_div_pow]

/-- The map of R64 read backwards gives the row's own OPC value. -/
theorem opcodeByte_of_opcodeOfByte (b : Byte) (o : Opcode) (h : opcodeOfByte b = some o) :
    opcodeByte o = b := by
  revert h
  revert b
  cases o <;> decide +kernel

/-- The BR values of R61 read backwards. -/
theorem fieldOfBr_of_brOfField (b : BitVec 2) (br : Br) (h : brOfField b = some br) : fieldOfBr br = b := by
  revert h
  revert b
  cases br <;> decide

/-- No register for BR = 3 alone. -/
theorem brOfField_eq_none (b : BitVec 2) : brOfField b = none ↔ b = 3 := by
  revert b
  decide

/-- What an accepted command is (R65): its opcode's row, its reserved bits, its register and its payload. -/
theorem decode_ok (c : Command) (i : Instr) (h : decode c = .ok i) :
    ∃ o br, opcodeOfByte (opcField c.word) = some o ∧
      c.word &&& formatMask (opcodeFormat o) = (opcodeByte o).setWidth 32 ∧
      brOfField (brField c.word) = some br ∧ c.data.length = opcodeDataLength o ∧
      i = assemble o br (idxField c.word) (valField c.word) c.arg c.data := by
  unfold decode at h
  cases ho : opcodeOfByte (opcField c.word) with
  | none => rw [ho] at h; cases h
  | some o =>
    rw [ho] at h
    dsimp only at h
    split at h
    · cases h
    · next hm =>
      cases hb : brOfField (brField c.word) with
      | none => rw [hb] at h; cases h
      | some br =>
        rw [hb] at h
        dsimp only at h
        split at h
        · cases h
        · next hl =>
          cases h
          exact ⟨o, br, rfl, Decidable.not_not.1 hm, rfl, Decidable.not_not.1 hl, rfl⟩

/-- Why a command is illegal (R65): no row, a reserved bit, or no register. -/
theorem decode_illegal (c : Command) : decode c = .error .illegalCommand ↔
    opcodeOfByte (opcField c.word) = none ∨
    ∃ o, opcodeOfByte (opcField c.word) = some o ∧
      (c.word &&& formatMask (opcodeFormat o) ≠ (opcodeByte o).setWidth 32 ∨
        brOfField (brField c.word) = none) := by
  unfold decode
  cases opcodeOfByte (opcField c.word) with
  | none => simp
  | some o =>
    by_cases hm : c.word &&& formatMask (opcodeFormat o) ≠ (opcodeByte o).setWidth 32
    · simp [hm]
    · cases brOfField (brField c.word) with
      | none => simp [hm]
      | some br =>
        by_cases hl : c.data.length ≠ opcodeDataLength o <;> simp [hm, hl]

end Sys2Proof.Laws
end

