-- ==== Sys2Proof/Laws/State.lean ====
section
/-! SUPPORT. One lemma per field per update of the state: what `respond`, `takeFault`, `writeBlk`,
`resetCore` and the statements' `faulted` do to each field. -/

namespace Sys2Proof.Machine

section Respond
variable (v : Word) (bs : List Byte) (e : Bool) (s : State)

@[simp] theorem respond_row : (respond v bs e s).row = s.row := rfl
@[simp] theorem respond_cc : (respond v bs e s).cc = s.cc := rfl
@[simp] theorem respond_seed : (respond v bs e s).seed = s.seed := rfl
@[simp] theorem respond_unp : (respond v bs e s).unp = s.unp := rfl
@[simp] theorem respond_rem : (respond v bs e s).rem = s.rem := rfl
@[simp] theorem respond_status : (respond v bs e s).status = s.status := rfl
@[simp] theorem respond_pending : (respond v bs e s).pending = s.pending := rfl
@[simp] theorem respond_responses :
    (respond v bs e s).responses = s.responses ++ [okResponse v bs e] := rfl
@[simp] theorem readBlk_respond (br : Br) : readBlk br (respond v bs e s) = readBlk br s := by
  cases br <;> rfl

end Respond

section Fault
variable (f : Fault) (s : State)

@[simp] theorem takeFault_row : (takeFault f s).row = s.row := rfl
@[simp] theorem takeFault_cc : (takeFault f s).cc = s.cc := rfl
@[simp] theorem takeFault_seed : (takeFault f s).seed = s.seed := rfl
@[simp] theorem takeFault_unp : (takeFault f s).unp = s.unp := rfl
@[simp] theorem takeFault_rem : (takeFault f s).rem = s.rem := rfl
@[simp] theorem takeFault_status : (takeFault f s).status = recordFault f s.status := rfl
@[simp] theorem takeFault_pending : (takeFault f s).pending = s.pending := rfl
@[simp] theorem takeFault_responses : (takeFault f s).responses =
    s.responses ++ [{ code := faultCode f, value := 0, bytes := [], eos := false }] := rfl

/-- Taking a fault is R161's effect with the fault's code. -/
theorem takeFault_eq_faulted : takeFault f s = faulted (faultCode f) s := rfl

@[simp] theorem recordFault_init (st : Status) : (recordFault f st).init = st.init := rfl
@[simp] theorem recordFault_unb (st : Status) : (recordFault f st).unb = st.unb := rfl
@[simp] theorem recordFault_eos (st : Status) : (recordFault f st).eos = st.eos := rfl
@[simp] theorem recordFault_err (st : Status) : (recordFault f st).err = true := rfl
@[simp] theorem recordFault_errcode (st : Status) : (recordFault f st).errcode =
    if st.errcode = 0 then (faultCode f).setWidth 4 else st.errcode := rfl

end Fault

section Faulted
variable (k : Byte) (s : State)

@[simp] theorem faulted_row : (faulted k s).row = s.row := rfl
@[simp] theorem faulted_cc : (faulted k s).cc = s.cc := rfl
@[simp] theorem faulted_seed : (faulted k s).seed = s.seed := rfl
@[simp] theorem faulted_unp : (faulted k s).unp = s.unp := rfl
@[simp] theorem faulted_rem : (faulted k s).rem = s.rem := rfl
@[simp] theorem faulted_pending : (faulted k s).pending = s.pending := rfl
@[simp] theorem faulted_responses : (faulted k s).responses =
    s.responses ++ [{ code := k, value := 0, bytes := [], eos := false }] := rfl
@[simp] theorem faulted_init : (faulted k s).status.init = s.status.init := rfl
@[simp] theorem faulted_unb : (faulted k s).status.unb = s.status.unb := rfl
@[simp] theorem faulted_eos : (faulted k s).status.eos = s.status.eos := rfl
@[simp] theorem faulted_err : (faulted k s).status.err = true := rfl
@[simp] theorem faulted_errcode : (faulted k s).status.errcode =
    if s.status.errcode = 0 then k.setWidth 4 else s.status.errcode := rfl

end Faulted

section WriteBlk
variable (br : Br) (v : Block) (s : State)

@[simp] theorem writeBlk_unp : (writeBlk br v s).unp = s.unp := by cases br <;> rfl
@[simp] theorem writeBlk_rem : (writeBlk br v s).rem = s.rem := by cases br <;> rfl
@[simp] theorem writeBlk_status : (writeBlk br v s).status = s.status := by cases br <;> rfl
@[simp] theorem writeBlk_pending : (writeBlk br v s).pending = s.pending := by cases br <;> rfl
@[simp] theorem writeBlk_responses : (writeBlk br v s).responses = s.responses := by cases br <;> rfl

/-- A block register reads as it was written. -/
@[simp] theorem readBlk_writeBlk_same : readBlk br (writeBlk br v s) = v := by cases br <;> rfl

/-- Writing one block register leaves the others alone. -/
theorem readBlk_writeBlk_other (b : Br) (h : b ≠ br) : readBlk b (writeBlk br v s) = readBlk b s := by
  cases br <;> cases b <;> first | rfl | exact absurd rfl h

/-- The last write of a block register stands. -/
@[simp] theorem writeBlk_writeBlk (w : Block) : writeBlk br w (writeBlk br v s) = writeBlk br w s := by
  cases br <;> rfl

/-- A command that writes one block register and responds changes that register alone. -/
theorem onlyBlockChanged_respond_writeBlk (w : Word) (bs : List Byte) (e : Bool) :
    OnlyBlockChanged br s (respond w bs e (writeBlk br v s)) := by
  refine ⟨fun b hb => ?_, ?_, ?_, ?_, ?_⟩
  · rw [readBlk_respond, readBlk_writeBlk_other br v s b hb]
  all_goals simp

end WriteBlk

section Configure
variable (n : Word) (st : Status)

@[simp] theorem configureStatus_init : (configureStatus n st).init = true := rfl
@[simp] theorem configureStatus_unb : (configureStatus n st).unb = (n == 0) := rfl
@[simp] theorem configureStatus_eos : (configureStatus n st).eos = false := rfl
@[simp] theorem configureStatus_err : (configureStatus n st).err = st.err := rfl
@[simp] theorem configureStatus_errcode : (configureStatus n st).errcode = st.errcode := rfl

end Configure

section Reset
variable (s : State)

@[simp] theorem resetCore_row : (resetCore s).row = 0 := rfl
@[simp] theorem resetCore_cc : (resetCore s).cc = 0 := rfl
@[simp] theorem resetCore_seed : (resetCore s).seed = 0 := rfl
@[simp] theorem resetCore_unp : (resetCore s).unp = State.reset.unp := rfl
@[simp] theorem resetCore_rem : (resetCore s).rem = 0 := rfl
@[simp] theorem resetCore_status : (resetCore s).status = State.reset.status := rfl
@[simp] theorem resetCore_pending : (resetCore s).pending = s.pending := rfl
@[simp] theorem resetCore_responses : (resetCore s).responses = s.responses := rfl

end Reset

end Sys2Proof.Machine
end

