-- ==== Sys2Proof/Laws/Operands.lean ====
section
/-! SUPPORT. What the operations over blocks, bytes and cells do: one spec lemma each. -/

namespace Sys2Proof.Machine

/-- SETBIT's formula writes bit `i` and no other. -/
theorem getLsbD_setBlockBit (v : Block) (i : Nat) (b : Bool) (j : Nat) (hi : i < 128) :
    (setBlockBit v i b).getLsbD j = if j = i then b else v.getLsbD j := by
  unfold setBlockBit
  by_cases hj : j < 128
  · rcases Nat.lt_trichotomy j i with h | h | h
    · simp [hj, Nat.ne_of_lt h, h]
    · subst h; simp [hj]
    · have h0 : ¬ j < i := by omega
      have h1 : j ≠ i := by omega
      have h2 : j - i ≠ 0 := by omega
      simp [hj, h0, h1, h2]
  · have : v.getLsbD j = false := BitVec.getLsbD_of_ge _ _ (by omega)
    have hne : j ≠ i := by omega
    simp [hj, this, hne]

/-- The loop `V[c] <- f c` leaves bit `c` at `f c` below its bound and 0 above. -/
theorem getLsbD_blockOfBits (n : Nat) (f : Nat → Bool) (j : Nat) (hn : n ≤ 128) :
    (blockOfBits n f).getLsbD j = (decide (j < n) && f j) := by
  induction n with
  | zero => simp [blockOfBits]
  | succ n ih =>
    rw [blockOfBits, getLsbD_setBlockBit _ _ _ _ (by omega), ih (by omega)]
    by_cases h : j = n
    · simp [h]
    · have : j < n + 1 ↔ j < n := by omega
      simp [h, this]

/-! ## The packed form -/

@[simp] theorem length_packed (v : Block) : (packed v).length = 16 := by simp [packed]

/-- Packed byte `j` is the slice `V[127-8j : 120-8j]`. -/
theorem getD_packed (v : Block) (j : Nat) (hj : j < 16) :
    (packed v).getD j 0 = v.extractLsb' (120 - 8 * j) 8 := by
  simp [packed, List.getD_eq_getElem?_getD, hj]

/-- The value of a byte list with one more byte at its end. -/
theorem bigEndian_concat (bytes : List Byte) (b : Byte) :
    bigEndian (bytes ++ [b]) = bigEndian bytes * 256 + b.toNat := by
  simp [bigEndian, List.foldl_append]

/-- Bit `i` of a big-endian value lies in byte `length - i/8 - 1`, at offset `i mod 8`. -/
theorem testBit_bigEndian (bytes : List Byte) (i : Nat) (hi : i < 8 * bytes.length) :
    (bigEndian bytes).testBit i = (bytes.getD (bytes.length - i / 8 - 1) 0).getLsbD (i % 8) := by
  induction bytes using List.reverseRecOn generalizing i with
  | nil => simp at hi
  | append_singleton bs b ih =>
    rw [bigEndian_concat]
    have hb : b.toNat < 2 ^ 8 := b.isLt
    have e : bigEndian bs * 256 + b.toNat = 2 ^ 8 * bigEndian bs + b.toNat := by ring
    rw [e, Nat.testBit_two_pow_mul_add _ hb]
    have hl : (bs ++ [b]).length = bs.length + 1 := by simp
    rw [hl] at hi ⊢
    by_cases h : i < 8
    · have h1 : bs.length + 1 - i / 8 - 1 = bs.length := by omega
      have h2 : i % 8 = i := by omega
      simp [h, h1, h2, List.getD_eq_getElem?_getD, BitVec.testBit_toNat]
    · have h1 : bs.length + 1 - i / 8 - 1 = bs.length - (i - 8) / 8 - 1 := by omega
      have h2 : i % 8 = (i - 8) % 8 := by omega
      have h3 : bs.length - (i - 8) / 8 - 1 < bs.length := by omega
      rw [if_neg h, ih (i - 8) (by omega), h1, h2]
      simp [List.getD_eq_getElem?_getD, List.getElem?_append_left h3]

/-- The block of 16 bytes has bit `i` where R41 places it. -/
theorem getLsbD_blockOf (bytes : List Byte) (hl : bytes.length = 16) (i : Nat) (hi : i < 128) :
    (blockOf bytes).getLsbD i = packedBit bytes i := by
  rw [blockOf, BitVec.getLsbD_ofNat, testBit_bigEndian bytes i (by omega), packedBit, hl]
  simp [hi]

/-! ## The unpacked form -/

/-- The loop `UNP[k] <- f k` leaves cell `k` at `f k`. -/
theorem cellAt_cellsOf (f : Nat → Byte) (k : Nat) (hk : k < 128) : cellAt (cellsOf f) k = f k := by
  have : (cellsOf f).toList = (List.range 128).map f := rfl
  simp [cellAt, this, List.getD_eq_getElem?_getD, hk]

/-- Two buffers with the same 128 cells are the same buffer. -/
theorem cells_ext (u w : Cells) (h : ∀ k < 128, cellAt u k = cellAt w k) : u = w := by
  apply Vector.ext
  intro k hk
  have := h k hk
  simpa [cellAt, List.getD_eq_getElem?_getD, hk] using this

/-- PACK: bit `c` is bit 0 of cell `c`. -/
theorem getLsbD_packCells (u : Cells) (c : Nat) (hc : c < 128) :
    (packCells u).getLsbD c = (cellAt u c).getLsbD 0 := by
  rw [packCells, getLsbD_blockOfBits _ _ _ (Nat.le_refl _)]
  simp [hc]

/-- UNPACK: cell `c` is bit `c`, zero-extended. -/
theorem cellAt_unpackBlock (v : Block) (c : Nat) (hc : c < 128) :
    cellAt (unpackBlock v) c = if v.getLsbD c then 1 else 0 := by
  rw [unpackBlock, cellAt_cellsOf _ _ hc]
  cases v.getLsbD c <;> rfl

/-- UNPACK keeps R24's invariant. -/
theorem cellsBinary_unpackBlock (v : Block) : CellsBinary (unpackBlock v) := by
  intro k hk
  rw [cellAt_unpackBlock v k hk]
  split <;> decide

/-- WRUNP keeps R24's invariant: a payload that passed its check holds 0 and 1 only. -/
theorem cellsBinary_cellsOf (data : List Byte) (h : ∀ b ∈ data, b.toNat ≤ 1) :
    CellsBinary (cellsOf fun k => data.getD k 0) := by
  intro k hk
  rw [cellAt_cellsOf _ _ hk, List.getD_eq_getElem?_getD]
  cases hd : data[k]? with
  | none => simp
  | some b => exact h b (List.mem_of_getElem? hd)

/-! ## The saturating conversion -/

/-- With cells of 0 and 1, a group's OR is 1 where a cell is 1, and 0 where none is. -/
theorem groupOr_eq (u : Cells) (h : CellsBinary u) (k : Nat) (hk : k < 16) :
    groupOr u k = if (List.range 8).any (fun j => cellAt u (8 * k + j) == 1) then 1 else 0 := by
  have hc : ∀ j < 8, cellAt u (8 * k + j) = 0 ∨ cellAt u (8 * k + j) = 1 := by
    intro j hj
    have := h (8 * k + j) (by omega)
    generalize cellAt u (8 * k + j) = x at this ⊢
    revert this
    revert x
    decide
  have step : ∀ js : List Nat, (∀ j ∈ js, j < 8) → ∀ acc : Byte, acc = 0 ∨ acc = 1 →
      js.foldl (fun any j => any ||| cellAt u (8 * k + j)) acc =
        if acc == 1 || js.any (fun j => cellAt u (8 * k + j) == 1) then 1 else 0 := by
    intro js
    induction js with
    | nil => rintro - acc (rfl | rfl) <;> rfl
    | cons j js ih =>
      intro hj acc ha
      have hj8 := hc j (hj j (by simp))
      have ih' := ih (fun x hx => hj x (by simp [hx])) (acc ||| cellAt u (8 * k + j))
      rw [List.foldl_cons, List.any_cons]
      rcases ha with rfl | rfl <;> rcases hj8 with e | e <;> rw [e] at ih' ⊢ <;>
        rw [ih' (by decide)] <;> simp
  simpa [groupOr] using step (List.range 8) (by simp) 0 (Or.inl rfl)

/-- Either order of R88 undoes itself on the 16 groups. -/
theorem groupOfByte_groupOfByte (order : BitpackOrder) (g : Nat) (hg : g < 16) :
    groupOfByte order (groupOfByte order g) = g := by
  cases order <;> simp [groupOfByte]; omega

/-- Packed byte `j` of BITPACK. -/
theorem getD_bitpackBytes (order : BitpackOrder) (u : Cells) (j : Nat) (hj : j < 16) :
    (bitpackBytes order u).getD j 0 =
      if groupOr u (groupOfByte order j) = 1 then 0xFF else 0x00 := by
  simp [bitpackBytes, List.getD_eq_getElem?_getD, hj]

@[simp] theorem length_bitpackBytes (order : BitpackOrder) (u : Cells) :
    (bitpackBytes order u).length = 16 := by simp [bitpackBytes]

end Sys2Proof.Machine
end

