-- ==== Sys2Proof/Laws/Ops.lean ====
section
/-! SUPPORT. What the automaton, the compressor and the stream do: one spec lemma each. -/

namespace Sys2Proof.Machine

/-! ## The automaton -/

/-- The rotate form of R101 is R100's rule, cell by cell. -/
theorem isNextGeneration_transition (v : Block) : IsNextGeneration v (transition v) := by
  intro c hc
  unfold transition
  rw [BitVec.getLsbD_xor, BitVec.getLsbD_or, BitVec.getLsbD_rotateRight, BitVec.getLsbD_rotateLeft]
  by_cases h0 : c = 0
  · subst h0; simp
  · by_cases h1 : c = 127
    · subst h1; simp
    · have e1 : (c + 1) % 128 = c + 1 := by omega
      have e2 : (c + 127) % 128 = c - 1 := by omega
      have h2 : ¬ c < 1 := by omega
      have h3 : c < 127 := by omega
      have h4 : 1 + c = c + 1 := by omega
      simp [e1, e2, h0, h3, h4, hc]

/-- The loop of R103: the row after its transitions, the column's bits below `i` kept, and those from `i`
on recorded after each transition. -/
theorem evaluateFrom_spec (k i : Nat) (r c : Block) (h : i + k ≤ 128) :
    (evaluateFrom k i r c).1 = transition^[k] r ∧
    ∀ j < 128, (evaluateFrom k i r c).2.getLsbD j =
      if i ≤ j ∧ j < i + k then (transition^[j - i + 1] r).getLsbD 63 else c.getLsbD j := by
  induction k generalizing i r c with
  | zero =>
    refine ⟨rfl, fun j _ => ?_⟩
    have : ¬ (i ≤ j ∧ j < i + 0) := by omega
    rw [if_neg this]; rfl
  | succ k ih =>
    obtain ⟨hr, hc⟩ := ih (i + 1) (transition r)
      (setBlockBit c i ((transition r).getLsbD Config.center)) (by omega)
    refine ⟨hr, fun j hj => ?_⟩
    rw [evaluateFrom, hc j hj, getLsbD_setBlockBit _ _ _ _ (by omega)]
    by_cases h1 : j = i
    · subst h1
      have : ¬ (j + 1 ≤ j ∧ j < j + 1 + k) := by omega
      simp [Config.center]
    · by_cases h2 : i + 1 ≤ j ∧ j < i + 1 + k
      · have h3 : i ≤ j ∧ j < i + (k + 1) := by omega
        have e : j - i + 1 = (j - (i + 1) + 1) + 1 := by omega
        rw [if_pos h2, if_pos h3, e, Function.iterate_succ_apply (n := j - (i + 1) + 1)]
      · have h3 : ¬ (i ≤ j ∧ j < i + (k + 1)) := by omega
        rw [if_neg h2, if_neg h3, if_neg h1]

/-- R103: the final row of an evaluation. -/
theorem evaluate_row (r : Block) : (evaluate r).1 = transition^[128] r :=
  (evaluateFrom_spec 128 0 r 0 (by omega)).1

/-- R103: bit `i` of the center column is column 63 after transition `i+1`. -/
theorem evaluate_column (r : Block) (i : Nat) (hi : i < 128) :
    (evaluate r).2.getLsbD i = (transition^[i + 1] r).getLsbD 63 := by
  have := (evaluateFrom_spec 128 0 r 0 (by omega)).2 i hi
  simpa [evaluate, hi] using this

/-! ## The compressor -/

/-- R121: ROW after a compress is generation 256. -/
theorem compressRounds_row (r : Block) : (compressRounds r).1 = transition^[256] r := by
  unfold compressRounds
  rw [evaluate_row, evaluate_row, ← Function.iterate_add_apply]

/-- R120: bit `i` of the output is column 63 after transition `128 + i + 1`. -/
theorem compressRounds_column (r : Block) (i : Nat) (hi : i < 128) :
    (compressRounds r).2.getLsbD i = (transition^[128 + i + 1] r).getLsbD 63 := by
  unfold compressRounds
  rw [evaluate_column _ i hi, evaluate_row, ← Function.iterate_add_apply]
  congr 2
  omega

/-! ## The stream -/

/-- R135: what the budget allows is at most what is requested. -/
theorem effectiveRequest_le (n : Word) (s : State) : effectiveRequest n s ≤ n.toNat := by
  unfold effectiveRequest
  split <;> omega

/-- R135: a bounded stream's REM covers what it delivers. -/
theorem effectiveRequest_le_rem (n : Word) (s : State) (h : s.status.unb = false) :
    effectiveRequest n s ≤ s.rem.toNat := by
  simp [effectiveRequest, h]

/-- A delivery changes SEED, REM, STATUS.EOS and the responses alone. -/
theorem deliver_frame (order : TruncOrder) (n : Word) (s : State) :
    (deliver order n s).row = s.row ∧ (deliver order n s).cc = s.cc ∧ (deliver order n s).unp = s.unp ∧
      (deliver order n s).pending = s.pending ∧ (deliver order n s).status.init = s.status.init ∧
      (deliver order n s).status.unb = s.status.unb ∧ (deliver order n s).status.err = s.status.err ∧
      (deliver order n s).status.errcode = s.status.errcode := by
  unfold deliver
  dsimp only
  split
  · exact ⟨rfl, rfl, rfl, rfl, rfl, rfl, rfl, rfl⟩
  · split <;> exact ⟨rfl, rfl, rfl, rfl, rfl, rfl, rfl, rfl⟩

@[simp] theorem chainBytes_zero (seed : Block) : chainBytes 0 seed = [] := rfl

/-- The chain's next block stands at the end. -/
theorem chainBytes_succ (k : Nat) (seed : Block) :
    chainBytes (k + 1) seed = chainBytes k seed ++ packed (compressBlock^[k + 1] seed) := by
  simp [chainBytes, List.range_succ]

/-- A chain of iterates of any function, from its first one on. It is said of any function so that no
check of it ever runs the compress function. -/
theorem flatMap_iterate_succ (f : Block → Block) (k : Nat) (x : Block) :
    ((List.range (k + 1)).flatMap fun j => packed (f^[j + 1] x)) =
      packed (f x) ++ (List.range k).flatMap fun j => packed (f^[j + 1] (f x)) := by
  rw [List.range_succ_eq_map, List.flatMap_cons, List.flatMap_map]
  rfl

/-- The chain's first block stands in front of the chain from it. -/
theorem chainBytes_succ' (k : Nat) (seed : Block) :
    chainBytes (k + 1) seed = packed (compressBlock seed) ++ chainBytes k (compressBlock seed) :=
  flatMap_iterate_succ compressBlock k seed

@[simp] theorem length_chainBytes (k : Nat) (seed : Block) : (chainBytes k seed).length = 16 * k := by
  induction k with
  | zero => rfl
  | succ k ih => rw [chainBytes_succ, List.length_append, ih, length_packed]; omega

/-- A chain is the chain of its first `a` blocks and the chain from the last of them. -/
theorem chainBytes_add (a b : Nat) (seed : Block) :
    chainBytes (a + b) seed = chainBytes a seed ++ chainBytes b (compressBlock^[a] seed) := by
  induction a generalizing seed with
  | zero => simp
  | succ a ih =>
    rw [Nat.add_right_comm, chainBytes_succ', ih, chainBytes_succ', List.append_assoc,
      Function.iterate_succ_apply]

/-- R133, whole blocks. -/
theorem produceWhole_eq (k : Nat) (seed : Block) :
    produceWhole k seed = (chainBytes k seed, compressBlock^[k] seed) := by
  induction k generalizing seed with
  | zero => rfl
  | succ k ih => rw [produceWhole, ih, chainBytes_succ', Function.iterate_succ_apply]

/-- R132: a split request covers it, with at most 16 bytes over. -/
theorem splitRequest_spec (n : Nat) :
    (splitRequest n).1 * 16 + (splitRequest n).2 = n ∧ (splitRequest n).2 ≤ 16 := by
  unfold splitRequest
  split <;> constructor <;> simp <;> omega

end Sys2Proof.Machine
end

