-- ==== Sys2Proof/Laws/Step.lean ====
section
/-! SUPPORT. What running one command and one step can do, said once. -/

namespace Sys2Proof.Machine

/-- A command that completes: one response with code 0, the fault record and the port untouched. -/
def Completes (s t : State) : Prop :=
  (∃ v bs e, t.responses = s.responses ++ [okResponse v bs e]) ∧ t.pending = s.pending ∧
    t.status.err = s.status.err ∧ t.status.errcode = s.status.errcode

theorem completes_respond (v : Word) (bs : List Byte) (e : Bool) (s u : State)
    (hr : u.responses = s.responses) (hp : u.pending = s.pending)
    (he : u.status.err = s.status.err) (hc : u.status.errcode = s.status.errcode) :
    Completes s (respond v bs e u) :=
  ⟨⟨v, bs, e, by simp [hr]⟩, by simp [hp], by simp [he], by simp [hc]⟩

/-- PULL either faults with NOT_INIT or completes, whatever P_TRUNC_ORDER is. -/
theorem pullStream_cases (order : TruncOrder) (n : Word) (s : State) :
    (s.status.init = false ∧ pullStream order n s = takeFault .notInit s) ∨
    (s.status.init = true ∧ Completes s (pullStream order n s)) := by
  unfold pullStream
  split
  · exact .inl ⟨‹_›, rfl⟩
  · have hi : s.status.init = true := by simpa using ‹¬ s.status.init = false›
    refine .inr ⟨hi, ?_⟩
    split
    · exact completes_respond _ _ _ _ _ rfl rfl rfl rfl
    · unfold deliver
      dsimp only
      split
      · exact completes_respond _ _ _ _ _ rfl rfl rfl rfl
      · split <;> exact completes_respond _ _ _ _ _ rfl rfl rfl rfl

/-- Every command either takes one fault, with no other effect, or completes (R164). -/
theorem exec_cases (i : Instr) (s : State) :
    (∃ f, exec i s = .next (takeFault f s)) ∨ (∃ t, exec i s = .next t ∧ Completes s t) := by
  cases i with
  | getbit br idx =>
    by_cases h : idx.toNat > 127
    · exact .inl ⟨.rangeError, by simp [exec, execGetbit, h]⟩
    · exact .inr ⟨_, by rw [exec, execGetbit, if_neg h], completes_respond _ _ _ _ _ rfl rfl rfl rfl⟩
  | setbit br idx val =>
    by_cases h : idx.toNat > 127
    · exact .inl ⟨.rangeError, by simp [exec, execSetbit, h]⟩
    · exact .inr ⟨_, by rw [exec, execSetbit, if_neg h],
        completes_respond _ _ _ _ _ (by simp) (by simp) (by simp) (by simp)⟩
  | wrblk br data =>
    by_cases h : data.length ≠ 16
    · exact .inl ⟨.lengthError, by rw [exec, execWrblk, if_pos h]⟩
    · exact .inr ⟨_, by rw [exec, execWrblk, if_neg h],
        completes_respond _ _ _ _ _ (by simp) (by simp) (by simp) (by simp)⟩
  | rdblk br => exact .inr ⟨_, rfl, completes_respond _ _ _ _ _ rfl rfl rfl rfl⟩
  | ldcanon br =>
    exact .inr ⟨_, rfl, completes_respond _ _ _ _ _ (by simp) (by simp) (by simp) (by simp)⟩
  | wrunp data =>
    by_cases h : data.length ≠ 128
    · exact .inl ⟨.lengthError, by rw [exec, execWrunp, if_pos h]⟩
    · by_cases h2 : data.any (fun b => decide (b.toNat > 1)) = true
      · exact .inl ⟨.cellValue, by rw [exec, execWrunp, if_neg h, if_pos h2]⟩
      · refine .inr ⟨respond 0 [] false { s with unp := cellsOf fun k => data.getD k 0 }, ?_,
          completes_respond _ _ _ _ _ rfl rfl rfl rfl⟩
        rw [exec, execWrunp, if_neg h, if_neg h2]
  | rdunp => exact .inr ⟨_, rfl, completes_respond _ _ _ _ _ rfl rfl rfl rfl⟩
  | pack br =>
    exact .inr ⟨_, rfl, completes_respond _ _ _ _ _ (by simp) (by simp) (by simp) (by simp)⟩
  | unpack br => exact .inr ⟨_, rfl, completes_respond _ _ _ _ _ rfl rfl rfl rfl⟩
  | bitpack br =>
    exact .inr ⟨_, rfl, completes_respond _ _ _ _ _ (by simp) (by simp) (by simp) (by simp)⟩
  | step => exact .inr ⟨_, rfl, completes_respond _ _ _ _ _ rfl rfl rfl rfl⟩
  | eval => exact .inr ⟨_, rfl, completes_respond _ _ _ _ _ rfl rfl rfl rfl⟩
  | compress => exact .inr ⟨_, rfl, completes_respond _ _ _ _ _ rfl rfl rfl rfl⟩
  | strinit n => exact .inr ⟨_, rfl, completes_respond _ _ _ _ _ rfl rfl rfl rfl⟩
  | pull n =>
    rcases pullStream_cases Config.truncOrder n s with ⟨_, h⟩ | ⟨_, h⟩
    · exact .inl ⟨.notInit, by rw [exec, execPull, h]⟩
    · exact .inr ⟨_, rfl, h⟩
  | rdstat => exact .inr ⟨_, rfl, completes_respond _ _ _ _ _ rfl rfl rfl rfl⟩
  | rdrem => exact .inr ⟨_, rfl, completes_respond _ _ _ _ _ rfl rfl rfl rfl⟩

/-- One step, by what the port holds. -/
theorem step_cases (s : State) :
    (s.pending = [] ∧ step s = .next s) ∨
    (∃ c rest, s.pending = .command c :: rest ∧ step s = runCommand c { s with pending := rest }) ∨
    (∃ rest, (s.pending = .reset :: rest ∨ ∃ c, s.pending = .resetDuring c :: rest) ∧
      step s = .next (resetCore { s with pending := rest })) := by
  unfold step takeInput
  cases hp : s.pending with
  | nil => simp
  | cons h rest =>
    cases h with
    | command c => exact .inr (.inl ⟨c, rest, rfl, rfl⟩)
    | reset => exact .inr (.inr ⟨rest, .inl rfl, rfl⟩)
    | resetDuring c => exact .inr (.inr ⟨rest, .inr ⟨c, rfl⟩, rfl⟩)

/-- The step of a state whose next input is a command. -/
theorem step_of_command (s : State) (c : Command) (rest : List HostInput)
    (h : s.pending = .command c :: rest) : step s = runCommand c { s with pending := rest } := by
  unfold step takeInput
  rw [h]

/-! ## Sequences of commands and what they deliver -/

@[simp] theorem execAll_nil (s : State) : execAll [] s = .next s := rfl

/-- A command that answers a next state, then the rest from there. -/
theorem execAll_cons {i : Instr} {s t : State} (h : exec i s = .next t) (is : List Instr) :
    execAll (i :: is) s = execAll is t := by
  rw [execAll, h]

@[simp] theorem deliveredBytes_nil : deliveredBytes [] = [] := rfl
@[simp] theorem deliveredBytes_cons (r : Response) (rs : List Response) :
    deliveredBytes (r :: rs) = r.bytes ++ deliveredBytes rs := by
  simp [deliveredBytes]

@[simp] theorem eosSignals_nil : eosSignals [] = 0 := rfl
@[simp] theorem eosSignals_cons (r : Response) (rs : List Response) :
    eosSignals (r :: rs) = eosSignals rs + if r.eos then 1 else 0 := by
  simp [eosSignals, List.countP_cons]

@[simp] theorem requested_nil : requested [] = 0 := rfl
@[simp] theorem requested_cons (n : Word) (ns : List Word) :
    requested (n :: ns) = n.toNat + requested ns := by
  simp [requested]

@[simp] theorem pullArgs_nil : pullArgs [] = [] := rfl
@[simp] theorem pullArgs_pull (n : Word) (is : List Instr) :
    pullArgs (.pull n :: is) = n :: pullArgs is := rfl

/-- A command that is no PULL asks for nothing. -/
theorem pullArgs_other (i : Instr) (is : List Instr) (h : ∀ n, i ≠ .pull n) :
    pullArgs (i :: is) = pullArgs is := by
  cases i <;> first | rfl | exact absurd rfl (h _)

@[simp] theorem pulledBytes_nil (rs : List Response) : pulledBytes [] rs = [] := rfl
@[simp] theorem pulledBytes_pull (n : Word) (is : List Instr) (r : Response) (rs : List Response) :
    pulledBytes (.pull n :: is) (r :: rs) = r.bytes ++ pulledBytes is rs := by
  simp [pulledBytes]

/-- The response to a command that is no PULL holds no byte of the stream. -/
theorem pulledBytes_other (i : Instr) (is : List Instr) (r : Response) (rs : List Response)
    (h : ∀ n, i ≠ .pull n) : pulledBytes (i :: is) (r :: rs) = pulledBytes is rs := by
  cases i <;> first | rfl | exact absurd rfl (h _)

end Sys2Proof.Machine
end

