-- ==== Sys2Proof/Tests/Slice0.lean ====
section
/-! SUPPORT. The model's own tests. Expected values are those of the spec: the vectors V<n> and programs
P<n> of 95_test_vectors.md, the encodings of 30_encoding.md, and the examples of the rules. The last
part shows a state and operands that meet the hypotheses of each statement. -/

-- One theorem at a time: a kernel evaluation that waits for another holds a thread with its whole stack.
set_option Elab.async false

namespace Sys2Proof.Tests

open Sys2Proof Sys2Proof.Machine

/-! ## Helpers -/

/-- The outcome is a next state of which `p` holds. -/
def after (o : Host.Outcome State Fault Refusal) (p : State → Bool) : Bool :=
  match o with
  | .next t    => p t
  | .fault _   => false
  | .refused _ => false

/-- The last response is `r`. -/
def answers (r : Response) (s : State) : Bool := s.responses.getLast? == some r

/-- The response to a fault with code `k`. -/
def faultResponse (k : Byte) : Response := ⟨k, 0, [], false⟩

/-- A state with one command on the port. -/
def withCommand (c : Command) (s : State) : State := { s with pending := [.command c] }

/-- The reset state with the row `v`. -/
def withRow (v : Block) : State := { State.reset with row := v }

/-- The reset state with the given cells set. -/
def withCells (set : List Nat) : State :=
  { State.reset with unp := cellsOf fun k => if set.contains k then 1 else 0 }

/-- SEED = CANON and a stream just configured with the budget `n`. -/
def withStream (n : Word) : State :=
  { State.reset with seed := canon, rem := n, status := configureStatus n State.reset.status }

/-- A bounded stream from SEED = CANON that has ended. -/
def ended : State := { withStream 0 with status := ⟨true, false, true, false, 0⟩ }

/-- The row `g` of 95_test_vectors.md. -/
def g : Block := 0x0123456789abcdeffedcba9876543210

/-! ## WellFormed: one ill-formed term for each check -/

theorem test_wellFormed_refuses_short_wrblk : (Instr.wrblk .cc (List.replicate 15 0)).wellFormed = false := by decide
theorem test_wellFormed_refuses_long_wrblk : (Instr.wrblk .cc (List.replicate 17 0)).wellFormed = false := by decide
theorem test_wellFormed_refuses_short_wrunp : (Instr.wrunp (List.replicate 127 0)).wellFormed = false := by decide +kernel
theorem test_wellFormed_accepts_full_payloads : (Instr.wrblk .cc (List.replicate 16 0)).wellFormed = true ∧
    (Instr.wrunp (List.replicate 128 2)).wellFormed = true := by decide +kernel
theorem test_wellFormed_refuses_short_pseudos : (Pseudo.ldseed []).wellFormed = false ∧
    (Pseudo.stream [1] 4).wellFormed = false ∧ (Pseudo.oneshot [1, 2]).wellFormed = false := by decide

/-! ## Decode: every constructor from a word written out bit by bit by R61 and R69 -/

/-- RSV2(7) VAL(1) IDX(8) RSV1(6) BR(2) OPC(8), most significant field first. -/
theorem test_decode_bitblock :
    decode ⟨0b0000000_0_00111111_000000_01_00000001#32, 0, []⟩ = .ok (.getbit .cc 63) ∧
    decode ⟨0b0000000_1_11111111_000000_10_00000010#32, 0, []⟩ = .ok (.setbit .seed 255 true) ∧
    decode ⟨0b0000000_0_00000000_000000_01_00000011#32, 0, List.replicate 16 7⟩ = .ok (.wrblk .cc (List.replicate 16 7)) ∧
    decode ⟨0b0000000_0_00000000_000000_10_00000100#32, 0, []⟩ = .ok (.rdblk .seed) ∧
    decode ⟨0b0000000_0_00000000_000000_00_00001001#32, 0, []⟩ = .ok .rdunp ∧
    decode ⟨0b0000000_0_00000000_000000_01_00001010#32, 0, []⟩ = .ok (.pack .cc) ∧
    decode ⟨0b0000000_0_00000000_000000_10_00001011#32, 0, []⟩ = .ok (.unpack .seed) ∧
    decode ⟨0b0000000_0_00000000_000000_00_00001100#32, 0, []⟩ = .ok (.bitpack .row) := by decide +kernel
theorem test_decode_wrunp : decode ⟨0b0000000_0_00000000_000000_00_00001000#32, 0, List.replicate 128 1⟩ =
    .ok (.wrunp (List.replicate 128 1)) := by decide +kernel
theorem test_decode_automaton_and_compressor :
    decode ⟨0b00010000#32, 0, []⟩ = .ok .step ∧ decode ⟨0b00010001#32, 0, []⟩ = .ok .eval ∧
    decode ⟨0b00010010#32, 0, []⟩ = .ok .compress := by decide +kernel
theorem test_decode_seed_and_stream :
    decode ⟨0b0000000_0_00000000_000000_10_00000101#32, 0, []⟩ = .ok (.ldcanon .seed) ∧
    decode ⟨0b00100000#32, 1000, []⟩ = .ok (.strinit 1000) ∧ decode ⟨0b00100001#32, 20, []⟩ = .ok (.pull 20) ∧
    decode ⟨0b00110000#32, 5, []⟩ = .ok .rdstat ∧ decode ⟨0b00110001#32, 0, []⟩ = .ok .rdrem := by decide +kernel
/-- V85 to V89, V100, V103, V107, V108, V110 to V112. -/
theorem test_decode_illegal : ([0x00000000, 0x00000006, 0x000000FF, 0x00000301, 0x00000401, 0x01000001, 0x02000002,
    0x00000110, 0x80000030, 0x00000304, 0x0000FC04].all fun w =>
      decode ⟨BitVec.ofNat 32 w, 0, []⟩ == .error .illegalCommand) = true ∧
    decode ⟨0x01000003#32, 0, List.replicate 16 0⟩ = .error .illegalCommand := by decide +kernel
/-- V104, V105, V109. -/
theorem test_decode_length : decode ⟨0x00000103#32, 0, List.replicate 15 0⟩ = .error .lengthError ∧
    decode ⟨0x00000103#32, 0, List.replicate 17 0⟩ = .error .lengthError ∧
    decode ⟨0x00000030#32, 0, [0]⟩ = .error .lengthError := by decide +kernel
/-- The examples of R69. -/
theorem test_encode_examples : encode (.getbit .cc 63) = ⟨0x003F0101, 0, []⟩ ∧
    encode (.setbit .seed 63 true) = ⟨0x013F0202, 0, []⟩ ∧ encode (.setbit .row 0 true) = ⟨0x01000002, 0, []⟩ ∧
    encode (.ldcanon .row) = ⟨0x00000005, 0, []⟩ ∧ encode (.pull 20) = ⟨0x00000021, 20, []⟩ := by decide
/-- The match words of opcode_table.json: each decodes and runs as the first command after reset. -/
theorem test_table_words_run : ([0x01, 0x02, 0x03, 0x04, 0x05, 0x08, 0x09, 0x0A, 0x0B, 0x0C, 0x10, 0x11, 0x12, 0x20,
    0x21, 0x30, 0x31].all fun w => (decodeTableWord 32 w).isSome &&
      after (step (State.reset.withFetchWord 32 w)) fun t => t.pending == []) = true := by decide +kernel
theorem test_table_word_of_getbit : decodeTableWord 32 0x003F0101 = some (.getbit .cc 63) := by decide
/-- R69: an operand is decimal, a payload hexadecimal or cell characters, and an unknown line is none. -/
theorem test_assembler_lines : assembleLine "STREAM aaaaaaaaaaaaaaaaaaaaaaaaaaaaaaaa, 0" =
      some [.wrblk .seed (List.replicate 16 0xaa), .strinit 0] ∧
    assembleLine "  ; only a comment" = some [] ∧ assembleLine "GETBIT PC, 1" = none := by decide +kernel

/-! ## Commands: at most two vectors each -/

/-- V18: byte 15 = 0x10, so bit 4 is set. -/
theorem test_getbit_bit4 : after (exec (.getbit .row 4) (withRow g)) (answers ⟨0, 1, [], false⟩) = true := by decide
/-- V101: 128 is a legal encoding and faults at execution. -/
theorem test_getbit_128 : after (step (withCommand ⟨0x00800001, 0, []⟩ State.reset)) (fun t =>
    answers (faultResponse 2) t && statusWord t.status == 0x28) = true := by decide +kernel
/-- V14. -/
theorem test_setbit_63 : after (exec (.setbit .row 63 true) State.reset) (fun t => t.row == 1 <<< 63) = true := by decide
/-- V19. -/
theorem test_setbit_clears : after (exec (.setbit .seed 63 false) (withStream 0)) (fun t => t.seed == 0) = true := by decide
/-- V18. -/
theorem test_wrblk_g : after (exec (.wrblk .row [0x01, 0x23, 0x45, 0x67, 0x89, 0xab, 0xcd, 0xef, 0xfe, 0xdc, 0xba, 0x98,
    0x76, 0x54, 0x32, 0x10]) State.reset) (fun t => t.row == g) = true := by decide +kernel
/-- V84: LENGTH_ERROR, nothing written. -/
theorem test_wrblk_short : after (step (withCommand ⟨0x3, 0, List.replicate 15 0x11⟩ State.reset)) (fun t =>
    answers (faultResponse 3) t && t.row == 0) = true := by decide +kernel
/-- V24's block, packed byte 0 first. -/
theorem test_rdblk_g : after (exec (.rdblk .row) (withRow g)) (answers ⟨0, 0, [0x01, 0x23, 0x45, 0x67, 0x89, 0xab, 0xcd,
    0xef, 0xfe, 0xdc, 0xba, 0x98, 0x76, 0x54, 0x32, 0x10], false⟩) = true := by decide +kernel
/-- R84's example: only byte 63 is 1. -/
theorem test_wrunp_cell63 : after (exec (.wrunp (List.replicate 63 0 ++ 1 :: List.replicate 64 0)) State.reset)
    (fun t => t.unp == (withCells [63]).unp) = true := by decide +kernel
/-- V83: CELL_VALUE for the last byte, nothing written. -/
theorem test_wrunp_two : after (exec (.wrunp (List.replicate 127 0 ++ [2])) (withCells [0])) (fun t =>
    answers (faultResponse 4) t && t.unp == (withCells [0]).unp) = true := by decide +kernel
/-- V25: byte 63 = 0x01 and the others 0. -/
theorem test_rdunp_cell63 : after (exec .rdunp (withCells [63]))
    (answers ⟨0, 0, List.replicate 63 0 ++ 1 :: List.replicate 64 0, false⟩) = true := by decide +kernel
/-- V22. -/
theorem test_pack_cell0 : after (exec (.pack .cc) (withCells [0])) (fun t => t.cc == 1) = true := by decide +kernel
/-- P4, line 7. -/
theorem test_pack_ends : after (exec (.pack .seed) (withCells [0, 127])) (fun t =>
    t.seed == 0x80000000000000000000000000000001) = true := by decide +kernel
/-- V25. -/
theorem test_unpack_canon : after (exec (.unpack .row) (withRow canon)) (fun t => t.unp == (withCells [63]).unp) = true := by
  decide +kernel
/-- V27, under each order. -/
theorem test_bitpack_orders :
    blockOf (bitpackBytes .direct (withCells [0]).unp) = 0xff000000000000000000000000000000 ∧
    blockOf (bitpackBytes .tail (withCells [0]).unp) = 0x000000000000000000000000000000ff := by decide +kernel
/-- V29: the same under both orders, whichever the open parameter is. -/
theorem test_bitpack_ends : after (exec (.bitpack .row) (withCells [0, 127])) (fun t =>
    t.row == 0xff0000000000000000000000000000ff) = true := by
  simp only [exec, execBitpack]
  generalize Config.bitpackOrder = order
  cases order <;> decide +kernel
/-- V50: separates the two orientations of the rule. -/
theorem test_step_orientation : after (exec .step (withRow (0b11 <<< 63))) (fun t => t.row == 0b1101 <<< 62) = true := by
  decide
/-- V34: the wrap-around. -/
theorem test_step_wrap : after (exec .step (withRow 1)) (fun t => t.row == 0x80000000000000000000000000000003) = true := by
  decide
/-- V52, V1. -/
theorem test_eval_canon : after (exec .eval (withRow canon)) (fun t => t.row == 0x9ba7980979256c785d7337f127604d3b &&
    t.cc == 0x080b6c71a41d4787ead4c3573ae4d19d) = true := by decide +kernel
/-- V53. -/
theorem test_eval_g : after (exec .eval (withRow g)) (fun t => t.row == 0x6cbcf5d1068e8adc7b3e082f883280cb &&
    t.cc == 0x0453fd5082f5bbe993ce51b4fc02aeb0) = true := by decide +kernel
/-- V60, V2: the document's packed vector. -/
theorem test_compress_canon : after (exec .compress (withRow canon)) (fun t =>
    t.row == 0x3333105259035fd46f7f408216e8df26 && t.cc == 0x3644030f6742c602abe9f8a6c8cd391b) = true := by decide +kernel
/-- V62. -/
theorem test_compress_g : after (exec .compress (withRow g)) (fun t =>
    t.row == 0xbac2e32ddd83daa8e67ef7ced9fd100b && t.cc == 0x834e31c3d290fba963cb9045e29390ef) = true := by decide +kernel
/-- V3. -/
theorem test_ldcanon : after (exec (.ldcanon .cc) State.reset) (fun t => t.cc == 0x8000000000000000) = true := by decide
/-- V77 and V78. -/
theorem test_strinit_bounded_and_unbounded :
    after (exec (.strinit 1000) State.reset) (fun t => statusWord t.status == 0x01 && t.rem == 1000) = true ∧
    after (exec (.strinit 0) State.reset) (fun t => statusWord t.status == 0x03 && t.rem == 0) = true := by decide
/-- V42, P3: truncated by the budget, with the one end-of-stream signal. -/
theorem test_pull_truncated : after (exec (.pull 40) (withStream 20)) (fun t =>
    answers ⟨0, 0, [0x36, 0x44, 0x03, 0x0f, 0x67, 0x42, 0xc6, 0x02, 0xab, 0xe9, 0xf8, 0xa6, 0xc8, 0xcd, 0x39, 0x1b,
      0x44, 0x7a, 0x03, 0xde], true⟩ t && t.seed == 0x447a03dec34fb914d33f35a9efbff2b6 && t.rem == 0 &&
    statusWord t.status == 0x05) = true := by decide +kernel
/-- V42 under GENERATE_THEN_TRUNCATE: SEED = B3. -/
theorem test_pull_generate_then_truncate : (pullStream .generateThenTruncate 40 (withStream 20)).seed =
    0x0c21be8e71238dc2edab55c9bb8132eb := by decide +kernel
/-- V79. -/
theorem test_rdstat_after_fault : after (exec .rdstat (takeFault .rangeError State.reset))
    (answers ⟨0, 0x28, [], false⟩) = true := by decide
/-- V109: RDSTAT that faults answers value 0. -/
theorem test_rdstat_with_data : after (step (withCommand ⟨0x30, 0, [0]⟩ State.reset)) (fun t =>
    answers (faultResponse 3) t && statusWord t.status == 0x38) = true := by decide +kernel
/-- R139's example: what is left of 1000 after 64. -/
theorem test_rdrem : after (exec .rdrem { withStream 936 with seed := 0 }) (answers ⟨0, 936, [], false⟩) = true := by decide

/-! ## Faults (V75, V80, V81) and reset -/

theorem test_pull_before_strinit : after (exec (.pull 5) State.reset) (fun t =>
    answers (faultResponse 5) t && statusWord t.status == 0x58) = true := by decide
theorem test_first_fault_is_kept : statusWord (takeFault .notInit (takeFault .rangeError State.reset)).status = 0x28 := by decide
theorem test_length_before_range : after (step (withCommand ⟨0x00C80001, 0, [0]⟩ State.reset)) (answers (faultResponse 3)) = true := by
  decide +kernel
theorem test_reset_clears_a_stream : after (step { withStream 20 with pending := [.resetDuring ⟨0x21, 5, []⟩, .reset] }) (fun t =>
    t.seed == 0 && t.rem == 0 && statusWord t.status == 0 && t.responses == [] && t.pending == [.reset]) = true := by
  decide +kernel

/-! ## The laws on concrete inputs -/

theorem test_setBlockBit_law : (setBlockBit g 5 true).getLsbD 5 = true := by
  rw [getLsbD_setBlockBit g 5 true 5 (by decide), if_pos rfl]
theorem test_blockOf_law : (blockOf (List.replicate 16 0xaa)).getLsbD 127 = true := by
  rw [getLsbD_blockOf _ (by decide) 127 (by decide)]; decide
theorem test_evaluateFrom_law : (evaluateFrom 3 1 canon 0).1 = transition^[3] canon :=
  (evaluateFrom_spec 3 1 canon 0 (by decide)).1
theorem test_encodedLength_law : (encode (.wrblk .row (List.replicate 16 1))).data.length = 16 :=
  Laws.EncodedLength.wrblk .row _ (by decide)

/-! ## Witnesses: a state and operands that meet each statement's hypotheses, for each of its clauses -/

theorem test_witness_reset_input : ({ withStream 20 with pending := [.reset] }).pending = .reset :: [] := rfl
theorem test_witness_reset_during : ({ withStream 20 with pending := [.resetDuring ⟨0x21, 5, []⟩] }).pending =
    .resetDuring ⟨0x21, 5, []⟩ :: [] := rfl
theorem test_witness_idle : (withRow g).pending = [] := rfl
/-- StepRunsTheDecodedCommand, FaultRecordIsSticky, FirstFailingCheckGivesTheCode: one command of each kind. -/
theorem test_witness_commands : (withCommand ⟨0x10, 0, []⟩ (withRow g)).pending = .command ⟨0x10, 0, []⟩ :: [] ∧
    decode ⟨0x10, 0, []⟩ = .ok .step ∧ decode ⟨0x06, 0, []⟩ = .error .illegalCommand ∧
    decode ⟨0x10, 0, [0]⟩ = .error .lengthError := by decide +kernel
/-- EveryCommandGetsExactlyOneResponse: a state with a command on the port and one without. -/
theorem test_witness_port : (withCommand ⟨0x06, 0, []⟩ State.reset).pending = .command ⟨0x06, 0, []⟩ :: [] ∧
    ∀ c rest, State.reset.pending ≠ .command c :: rest := ⟨rfl, fun _ _ h => by cases h⟩
theorem test_witness_roundtrip : (Instr.setbit .seed 255 true).wellFormed = true ∧
    (Instr.wrblk .cc (List.replicate 16 0xff)).wellFormed = true ∧ (Instr.wrunp (List.replicate 128 1)).wellFormed = true ∧
    (Instr.pull 0xFFFFFFFF).wellFormed = true := by decide +kernel
theorem test_witness_accepted : decode ⟨0x21, 0xFFFFFFFF, []⟩ = .ok (.pull 0xFFFFFFFF) ∧
    decode ⟨0x017F0202, 3, []⟩ = .ok (.setbit .seed 127 true) := by decide +kernel
/-- IllegalWordsRaiseIllegalCommand, at the edges of R67's three kinds. -/
theorem test_witness_illegal : IllegalWord 0x00 ∧ IllegalWord 0x07 ∧ IllegalWord 0x0D ∧ IllegalWord 0x1F ∧ IllegalWord 0x22 ∧
    IllegalWord 0x32 ∧ IllegalWord 0xFF ∧ IllegalWord 0x80000031 ∧ IllegalWord 0x01000001 ∧ IllegalWord 0x0000030C ∧
    ¬ IllegalWord 0x31 ∧ ¬ IllegalWord 0x01FF0202 := by and_intros <;> decide +kernel
/-- WrongPayloadLengthRaisesLengthError: one byte short, one byte over, none where none is due. -/
theorem test_witness_length : ¬ IllegalWord 0x103 ∧ (List.replicate 15 (0 : Byte)).length ≠ requiredLength (opcNumber 0x103) ∧
    (List.replicate 17 (0 : Byte)).length ≠ requiredLength (opcNumber 0x103) ∧ ¬ IllegalWord 0x08 ∧
    (List.replicate 127 (0 : Byte)).length ≠ requiredLength (opcNumber 0x08) ∧
    (List.replicate 128 (0 : Byte)).length = requiredLength (opcNumber 0x08) ∧
    [(0 : Byte)].length ≠ requiredLength (opcNumber 0x10) := by decide +kernel
theorem test_witness_arg : opcNumber 0x10 ≠ 0x20 ∧ opcNumber 0x10 ≠ 0x21 := by decide
theorem test_witness_sixteen_bytes : (List.replicate 16 (0xaa : Byte)).length = 16 ∧
    (List.replicate 15 (0xaa : Byte)).length ≠ 16 ∧ (List.replicate 17 (0xaa : Byte)).length ≠ 16 := by decide
/-- FirstFailingCheckGivesTheCode and FaultChangesOnlyTheFaultRecord: each code, and the order of the checks. -/
theorem test_witness_codes : commandCode ⟨0x00C80401, 0, [0]⟩ State.reset = 1 ∧ commandCode ⟨0x00C80001, 0, [0]⟩ State.reset = 3 ∧
    commandCode ⟨0x00800001, 0, []⟩ State.reset = 2 ∧ commandCode ⟨0x007F0001, 0, []⟩ State.reset = 0 ∧
    commandCode ⟨0x01FF0002, 0, []⟩ State.reset = 2 ∧ commandCode ⟨0x08, 0, List.replicate 127 0 ++ [2]⟩ State.reset = 4 ∧
    commandCode ⟨0x21, 5, []⟩ State.reset = 5 ∧ commandCode ⟨0x21, 5, []⟩ (withStream 20) = 0 := by decide +kernel
/-- FaultRecordIsSticky: a command on a state with a fault recorded, and on one without. -/
theorem test_witness_sticky : after (step (withCommand ⟨0x21, 5, []⟩ (takeFault .rangeError State.reset))) (fun t =>
    t.status.err && t.status.errcode == 2 && answers (faultResponse 5) t) = true := by decide +kernel
/-- EveryStepKeepsTheInvariant: the invariant on a live stream whose next PULL ends it. -/
theorem test_witness_invariant : CoreInvariant (withCommand ⟨0x21, 1, []⟩ (withStream 1)) ∧
    after (step (withCommand ⟨0x21, 1, []⟩ (withStream 1))) (fun t => t.status.eos) = true := by decide +kernel
/-- OnlyTheListedCommandsWriteEachRegister: a command that changes each register and field it speaks of. -/
theorem test_witness_writers : after (step (withCommand ⟨0x10, 0, []⟩ (withRow 1))) (fun t => t.row != 1) = true ∧
    after (step (withCommand ⟨0x0B, 0, []⟩ (withRow 1))) (fun t => t.unp != State.reset.unp) = true ∧
    after (step (withCommand ⟨0x20, 7, []⟩ State.reset)) (fun t => t.rem != 0 && t.status.init) = true ∧
    after (step (withCommand ⟨0x20, 0, []⟩ (withStream 7))) (fun t => t.status.unb) = true ∧
    after (step (withCommand ⟨0x21, 7, []⟩ (withStream 7))) (fun t => t.status.eos && t.rem == 0) = true ∧
    after (step (withCommand ⟨0x20, 5, []⟩ ended)) (fun t => !t.status.eos) = true ∧
    after (step (withCommand ⟨0x00800001, 0, []⟩ (withStream 7))) (fun t => t.status.err && t.status.errcode == 2) = true := by
  decide +kernel
/-- UnlistedCommandsDoNotReadTheBlock: a command that does not write the register, one that writes all of it,
one whose payload makes it write nothing, and SETBIT. -/
theorem test_witness_unlisted_reader : readsBlk .cc .step = false ∧ writesBlk .cc .step = false ∧
    readsBlk .row (.pull 16) = false ∧ readsBlk .cc (.pull 16) = false ∧ readsBlk .seed .compress = false ∧
    readsBlk .row (.getbit .cc 63) = false ∧
    (readsBlk .cc .eval = false ∧ writesBlk .cc .eval = true ∧ Instr.eval.wellFormed = true ∧
      ∀ idx val, Instr.eval ≠ .setbit .cc idx val) ∧
    (readsBlk .row (.wrblk .row [1]) = false ∧ (Instr.wrblk .row [1]).wellFormed = false) ∧
    readsBlk .row (.setbit .row 127 true) = false := by
  refine ⟨by decide, by decide, by decide, by decide, by decide, by decide, ⟨by decide, by decide, by decide, ?_⟩, by decide, by decide⟩
  intro _ _ h
  cases h
theorem test_witness_read_commands : (127 : BitVec 8).toNat ≤ 127 ∧ (0 : BitVec 8).toNat ≤ 127 := by decide
/-- GETBIT and SETBIT: both sides of the last legal index. -/
theorem test_witness_index : (127 : BitVec 8).toNat ≤ 127 ∧ (128 : BitVec 8).toNat > 127 ∧ (255 : BitVec 8).toNat > 127 := by decide
/-- WrunpLoadsTheCells: all bytes 0 or 1, one byte above 1 at the end, and a length of 127. -/
theorem test_witness_wrunp : (List.replicate 128 (1 : Byte)).length = 128 ∧ (∀ b ∈ List.replicate 128 (1 : Byte), b.toNat ≤ 1) ∧
    (List.replicate 127 (0 : Byte) ++ [2]).length = 128 ∧ (∃ b ∈ List.replicate 127 (0 : Byte) ++ [2], b.toNat > 1) ∧
    (List.replicate 127 (0 : Byte)).length ≠ 128 := by decide +kernel
theorem test_witness_binary_cells : CellsBinary (withCells [0, 127]).unp := by decide +kernel
/-- A group holds a 1, as a search of its eight cells. -/
theorem exists_cell_iff_any (u : Cells) (k : Nat) : (∃ j < 8, cellAt u (8 * k + j) = 1) ↔
    ((List.range 8).any fun j => cellAt u (8 * k + j) == 1) = true := by
  simp [List.any_eq_true]
/-- BitpackSaturatesEachGroup, its second part: cells 0 and 127 make symmetric groups (V29). -/
theorem test_witness_symmetric_groups : ∀ k < 16, (∃ j < 8, cellAt (withCells [0, 127]).unp (8 * k + j) = 1) ↔
    ∃ j < 8, cellAt (withCells [0, 127]).unp (8 * (15 - k) + j) = 1 := by
  have h : ∀ k < 16, ((List.range 8).any fun j => cellAt (withCells [0, 127]).unp (8 * k + j) == 1) =
      (List.range 8).any fun j => cellAt (withCells [0, 127]).unp (8 * (15 - k) + j) == 1 := by decide +kernel
  intro k hk
  rw [exists_cell_iff_any, exists_cell_iff_any, h k hk]
/-- ProduceChainsEveryBlock and RequestSplitsIntoBlocksAndRemainder: the edges of the remainder and of the split. -/
theorem test_witness_remainder : 0 ≤ 16 ∧ 16 ≤ 16 ∧ splitRequest 16 = (0, 16) ∧ splitRequest 17 = (1, 1) ∧
    splitRequest 40 = (2, 8) ∧ splitRequest 0 = (0, 0) := by decide
/-- PullDeliversTheChain and TruncationOrderAffectsOnlySeed: a live bounded stream and an unbounded one. -/
theorem test_witness_live_streams : (withStream 20).status.init = true ∧ (withStream 20).status.eos = false ∧
    (withStream 0).status.unb = true := by decide
/-- PullDeliversNothingInTheCornerCases: before STRINIT, after end-of-stream, and a request of 0 on a live stream. -/
theorem test_witness_pull_corners : State.reset.status.init = false ∧
    CoreInvariant ended ∧
    CoreInvariant (withStream 1) ∧ (withStream 1).status.init = true := by
  and_intros <;> decide +kernel
/-- EosIsSignalledByTheLastPullAlone: the PULL that ends a stream, and a command after the end. -/
theorem test_witness_eos : CoreInvariant (withCommand ⟨0x21, 33, []⟩ (withStream 20)) ∧
    after (step (withCommand ⟨0x21, 33, []⟩ (withStream 20))) (fun t => t.responses.length == 1 && t.rem == 0) = true ∧
    CoreInvariant (withCommand ⟨0x21, 5, []⟩ ended) ∧
    after (step (withCommand ⟨0x21, 5, []⟩ ended))
      (answers ⟨0, 0, [], false⟩) = true := by
  and_intros <;> decide +kernel
/-- PullNeverDeliversMoreThanRequested: a bounded stream with REM above and below the request, and an unbounded one. -/
theorem test_witness_pull_bounds : (withStream 20).status.unb = false ∧ (withStream 0).status.unb = true := by decide
/-- UnboundedStreamNeverEnds: a configured stream, and UNB alone, which no run reaches. -/
theorem test_witness_unbounded_stream : ((withStream 0).status.init = true ∧ (withStream 0).status.unb = true) ∧
    ({ State.reset with status := ⟨false, true, false, false, 0⟩ }).status.unb = true := by decide
/-- OtherCommandsDoNotDisturbTheBoundedTotal: a fault and a block read between two PULLs. -/
theorem test_witness_interleaved : (1 : Word) ≠ 0 ∧
    ∀ n, Instr.strinit n ∉ [.pull 5, .getbit .row 200, .rdblk .seed, .pull 16] := by
  refine ⟨by decide, fun n h => ?_⟩
  simp at h
/-- What is pulled among other commands: RDBLK's bytes are no bytes of the stream. -/
theorem test_pulled_among_other_commands : pullArgs [.pull 5, .rdblk .row, .pull 2] = [5, 2] ∧
    pulledBytes [.rdblk .row, .pull 2] [⟨0, 0, [7, 7], false⟩, ⟨0, 0, [1, 2], false⟩] = [1, 2] := by decide
theorem test_witness_bounded_budget : (1 : Word) ≠ 0 ∧ (0xFFFFFFFF : Word) ≠ 0 := by decide
theorem test_witness_equal_seeds : (withStream 20).seed = ({ withStream 0 with row := g, cc := g }).seed := rfl
/-- WholeBlockPullsDeliverTheChain: a PULL of 40 that the budget cuts to two whole blocks, and requests that
are whole blocks themselves. -/
theorem test_witness_truncated_to_whole_blocks : after (execAll [.strinit 32, .pull 40, .pull 8] { State.reset with seed := canon })
    (fun t => t.responses.map (fun r => r.bytes.length) == [0, 32, 0]) = true := by decide +kernel
theorem test_witness_whole_block_pulls : ∀ n ∈ [(16 : Word), 0, 32], n.toNat % 16 = 0 := by
  intro n hn
  fin_cases hn <;> decide
theorem test_witness_zero_seed : (withRow g).seed = 0 := rfl

end Sys2Proof.Tests
end

section
/-! SUPPORT. Which commands the decoder accepts, and the code every command answers (R160, R163). -/

namespace Sys2Proof.Machine

open Sys2Proof.Laws

/-! ## The decoder's outcomes in the numbers of R66 and R67 -/

/-- The OPC number of a word whose opcode is the row `o`. -/
theorem opcNumber_of_opcodeOfByte {w : Word} {o : Opcode} (h : opcodeOfByte (opcField w) = some o) :
    opcNumber w = (opcodeByte o).toNat := by
  rw [opcodeByte_of_opcodeOfByte _ _ h, toNat_opcField]

/-- R67's list of unassigned values is what the map of R64 leaves out. -/
theorem opcodeOfByte_eq_none (b : Byte) : opcodeOfByte b = none ↔ UnassignedOpcode b.toNat := by
  revert b
  decide +kernel

/-- R62: a format's fixed bits are OPC and the row's reserved bits, and these lie outside OPC. -/
theorem formatMask_eq (o : Opcode) :
    formatMask (opcodeFormat o) = 0xFF ||| reservedMask (opcodeByte o).toNat ∧
      0xFF &&& reservedMask (opcodeByte o).toNat = 0 := by
  cases o <;> decide

/-- R66: the payload a row requires, by its OPC number. -/
theorem opcodeDataLength_eq (o : Opcode) :
    opcodeDataLength o = requiredLength (opcodeByte o).toNat := by
  cases o <;> rfl

/-- R67: a row without a BR field reserves the bits a BR field would have. -/
theorem hasBr_or_reserved (o : Opcode) :
    HasBr (opcodeByte o).toNat ∨ reservedMask (opcodeByte o).toNat = 0xFFFFFF00 := by
  cases o <;> decide

/-- OPC alone, as a mask of the word. -/
theorem setWidth_opcField (w : Word) : (opcField w).setWidth 32 = w &&& 0xFF := by
  have h : ∀ i (hi : i < 32), (255#32)[i] = decide (i < 8) := by decide
  ext i hi
  simp [opcField, h, hi, Bool.and_comm]

/-- A mask in two disjoint parts finds no more than its first part exactly when its second finds nothing. -/
theorem and_or_eq_and_left (w a m : Word) (hd : a &&& m = 0) :
    w &&& (a ||| m) = w &&& a ↔ w &&& m = 0 := by
  constructor
  · intro h
    calc w &&& m = (w &&& (a ||| m)) &&& m := by
          ext i hi; cases h1 : m[i] <;> simp [h1]
      _ = w &&& (a &&& m) := by rw [h, BitVec.and_assoc]
      _ = 0 := by rw [hd]; simp
  · intro h
    calc w &&& (a ||| m) = (w &&& a) ||| (w &&& m) := by ext i hi; simp [Bool.and_or_distrib_left]
      _ = w &&& a := by rw [h]; simp

/-- R65's mask test is R67's reserved bits. -/
theorem and_formatMask_eq_iff {w : Word} {o : Opcode} (h : opcodeOfByte (opcField w) = some o) :
    w &&& formatMask (opcodeFormat o) = (opcodeByte o).setWidth 32 ↔
      w &&& reservedMask (opcNumber w) = 0 := by
  obtain ⟨hm, hd⟩ := formatMask_eq o
  rw [hm, opcodeByte_of_opcodeOfByte _ _ h, setWidth_opcField, ← toNat_opcField w,
    ← opcodeByte_of_opcodeOfByte _ _ h]
  exact and_or_eq_and_left w _ _ hd

/-- A word of which every bit above OPC is reserved and 0 has BR = 0. -/
theorem brNumber_of_reserved {w : Word} (h : w &&& 0xFFFFFF00 = 0) : w.toNat / 256 % 4 = 0 := by
  have hbr : brField w = brField (w &&& 0xFFFFFF00) := by
    have hm : ∀ i < 2, (0xFFFFFF00 : Word).getLsbD (8 + i) = true := by decide
    ext i hi
    simp only [brField, BitVec.getElem_extractLsb', BitVec.getLsbD_and, hm i hi, Bool.and_true]
  rw [← toNat_brField, hbr, h]
  decide

/-- R67: with the reserved bits 0, a word of a row names no register exactly when the row has a BR field and
it is 3. -/
theorem brOfField_eq_none_iff {w : Word} {o : Opcode} (h : opcodeOfByte (opcField w) = some o)
    (hr : w &&& reservedMask (opcNumber w) = 0) :
    brOfField (brField w) = none ↔ HasBr (opcNumber w) ∧ w.toNat / 256 % 4 = 3 := by
  have h3 : brOfField (brField w) = none ↔ w.toNat / 256 % 4 = 3 := by
    rw [brOfField_eq_none, ← BitVec.toNat_inj, toNat_brField]; rfl
  rw [h3, iff_and_self]
  intro hbr
  rw [opcNumber_of_opcodeOfByte h] at hr ⊢
  refine (hasBr_or_reserved o).resolve_right fun hm => ?_
  rw [hm] at hr
  have := brNumber_of_reserved hr
  omega

/-- R65, R67: the decoder finds a command illegal exactly for the three kinds of word R67 lists. -/
theorem decode_illegal_iff (c : Command) : decode c = .error .illegalCommand ↔ IllegalWord c.word := by
  rw [decode_illegal]
  unfold IllegalWord
  rw [← toNat_opcField, ← opcodeOfByte_eq_none, toNat_opcField]
  cases ho : opcodeOfByte (opcField c.word) with
  | none => simp
  | some o =>
    by_cases hr : c.word &&& reservedMask (opcNumber c.word) = 0
    · simp [and_formatMask_eq_iff ho, brOfField_eq_none_iff ho hr, hr]
    · exact iff_of_true (.inr ⟨o, rfl, .inl ((and_formatMask_eq_iff ho).not.2 hr)⟩) (.inr (.inl hr))

/-- R65, R66: a legal command decodes by its payload's length alone. -/
theorem decode_of_legal (c : Command) (h : ¬ IllegalWord c.word) :
    ∃ o br, opcodeOfByte (opcField c.word) = some o ∧
      decode c = if c.data.length ≠ requiredLength (opcNumber c.word) then .error .lengthError
        else .ok (assemble o br (idxField c.word) (valField c.word) c.arg c.data) := by
  rw [← decode_illegal_iff, decode_illegal] at h
  push Not at h
  obtain ⟨hsome, hlegal⟩ := h
  obtain ⟨o, ho⟩ := Option.ne_none_iff_exists'.1 hsome
  obtain ⟨hm, hb⟩ := hlegal o ho
  obtain ⟨br, hbr⟩ := Option.ne_none_iff_exists'.1 hb
  refine ⟨o, br, ho, ?_⟩
  rw [opcNumber_of_opcodeOfByte ho, ← opcodeDataLength_eq]
  simp [decode, ho, hm, hbr]

/-! ## The code a command answers (R160, R163) -/

/-- The code with which `exec` answers a command: 0, or that of the one fault its own rule raises. -/
def execCode (i : Instr) (s : State) : Byte :=
  match i with
  | .getbit _ idx   => if idx.toNat > 127 then 2 else 0
  | .setbit _ idx _ => if idx.toNat > 127 then 2 else 0
  | .wrblk _ data   => if data.length ≠ 16 then 3 else 0
  | .wrunp data     => if data.length ≠ 128 then 3 else if ∃ b ∈ data, b.toNat > 1 then 4 else 0
  | .pull _         => if s.status.init = false then 5 else 0
  | _               => 0

/-- R163: a command that decodes answers the code of its instruction. -/
theorem commandCode_of_ok {c : Command} {i : Instr} (s : State) (h : decode c = .ok i) :
    commandCode c s = execCode i s := by
  have hlegal : ¬ IllegalWord c.word := by
    rw [← decode_illegal_iff, h]; simp
  obtain ⟨o, br, ho, hd⟩ := decode_of_legal c hlegal
  rw [h] at hd
  split at hd
  · cases hd
  · next hl =>
    cases hd
    unfold commandCode
    rw [if_neg hlegal, if_neg hl, ← toNat_idxField, opcNumber_of_opcodeOfByte ho]
    rw [not_not, opcNumber_of_opcodeOfByte ho] at hl
    cases o <;> simp [assemble, execCode, opcodeByte, requiredLength, hl]

/-- R163: a command the decoder refuses answers the decoder's code. -/
theorem commandCode_of_error {c : Command} {e : DecodeError} (s : State) (h : decode c = .error e) :
    commandCode c s = faultCode (faultOfDecode e) := by
  unfold commandCode
  cases e with
  | illegalCommand => rw [if_pos ((decode_illegal_iff c).1 h)]; rfl
  | lengthError =>
    have hlegal : ¬ IllegalWord c.word := by
      rw [← decode_illegal_iff, h]; simp
    obtain ⟨o, br, -, hd⟩ := decode_of_legal c hlegal
    rw [h] at hd
    split at hd
    · next hl => rw [if_neg hlegal, if_pos hl]; rfl
    · cases hd

end Sys2Proof.Machine
end

section
/-! SUPPORT. What a completed command can do to the state, said once. -/

namespace Sys2Proof.Machine

/-- What the state is after command `i` has run from `s` to its end without a fault. -/
inductive ExecEffect (s : State) : Instr → State → Prop where
  /-- It answers, and changes nothing. -/
  | read (i : Instr) (value : Word) (bytes : List Byte) : ExecEffect s i (respond value bytes false s)
  /-- It writes one block register that R20 says it may write. -/
  | block (i : Instr) (br : Br) (v : Block) (bytes : List Byte) (hw : writesBlk br i = true) :
    ExecEffect s i (respond 0 bytes false (writeBlk br v s))
  /-- It writes ROW and CC. -/
  | rowAndColumn (i : Instr) (row cc : Block) (hrow : writesBlk .row i = true)
      (hcc : writesBlk .cc i = true) : ExecEffect s i (respond 0 [] false { s with row := row, cc := cc })
  /-- WRUNP or UNPACK writes the cell buffer, with cells of 0 and 1. -/
  | cells (i : Instr) (u : Cells) (hi : (∃ data, i = .wrunp data) ∨ ∃ br, i = .unpack br)
      (hu : CellsBinary u) : ExecEffect s i (respond 0 [] false { s with unp := u })
  /-- STRINIT configures a stream. -/
  | configure (n : Word) :
    ExecEffect s (.strinit n) (respond 0 [] false { s with rem := n, status := configureStatus n s.status })
  /-- PULL delivers from a bounded stream and leaves a budget. -/
  | pull (n : Word) (bytes : List Byte) (seed : Block) (left : Word) (hinit : s.status.init = true)
      (hunb : s.status.unb = false) (heos : s.status.eos = false) (hleft : left ≠ 0) :
    ExecEffect s (.pull n) (respond 0 bytes false { s with seed := seed, rem := left })
  /-- PULL ends a bounded stream. -/
  | pullLast (n : Word) (bytes : List Byte) (seed : Block) (hinit : s.status.init = true)
      (hunb : s.status.unb = false) :
    ExecEffect s (.pull n) (respond 0 bytes true
      { s with seed := seed, rem := 0, status := { s.status with eos := true } })

/-- R135: a PULL of a configured stream. -/
theorem execEffect_pullStream (order : TruncOrder) (n : Word) (s : State) (hinit : s.status.init = true) :
    ExecEffect s (.pull n) (pullStream order n s) := by
  unfold pullStream
  rw [if_neg (by simp [hinit])]
  split
  · exact .read _ _ _
  · next hlive =>
    unfold deliver
    dsimp only
    split
    · exact .block _ .seed _ _ rfl
    · next hunb =>
      rw [Bool.not_eq_true] at hunb
      have heos : s.status.eos = false := by simpa [hunb] using hlive
      split
      · next hleft => rw [hleft]; exact .pullLast n _ _ hinit hunb
      · next hleft => exact .pull n _ _ _ hinit hunb heos hleft

/-- Every command either takes the one fault its rule raises, with that fault's code, or completes with
code 0 and one of the effects above. -/
theorem exec_effect (i : Instr) (s : State) :
    (∃ f, execCode i s = faultCode f ∧ exec i s = .next (takeFault f s)) ∨
    (execCode i s = 0 ∧ ∃ t, exec i s = .next t ∧ ExecEffect s i t) := by
  cases i with
  | getbit br idx =>
    by_cases h : idx.toNat > 127
    · exact .inl ⟨.rangeError, if_pos h, if_pos h⟩
    · exact .inr ⟨if_neg h, _, if_neg h, .read _ _ _⟩
  | setbit br idx val =>
    by_cases h : idx.toNat > 127
    · exact .inl ⟨.rangeError, if_pos h, if_pos h⟩
    · exact .inr ⟨if_neg h, _, if_neg h, .block _ br _ _ (by simp [writesBlk])⟩
  | wrblk br data =>
    by_cases h : data.length ≠ 16
    · exact .inl ⟨.lengthError, if_pos h, if_pos h⟩
    · exact .inr ⟨if_neg h, _, if_neg h, .block _ br _ _ (by simp [writesBlk])⟩
  | wrunp data =>
    by_cases h : data.length ≠ 128
    · exact .inl ⟨.lengthError, if_pos h, if_pos h⟩
    · by_cases h1 : ∃ b ∈ data, b.toNat > 1
      · refine .inl ⟨.cellValue, ?_, ?_⟩
        · rw [execCode, if_neg h, if_pos h1]; rfl
        · rw [exec, execWrunp, if_neg h, if_pos (by simpa using h1)]
      · refine .inr ⟨?_, respond 0 [] false { s with unp := cellsOf fun k => data.getD k 0 }, ?_,
          .cells _ _ (.inl ⟨data, rfl⟩) (cellsBinary_cellsOf data (by simpa using h1))⟩
        · rw [execCode, if_neg h, if_neg h1]
        · rw [exec, execWrunp, if_neg h, if_neg (by simpa using h1)]
  | pull n =>
    by_cases h : s.status.init = false
    · exact .inl ⟨.notInit, if_pos h, congrArg _ (if_pos h)⟩
    · exact .inr ⟨if_neg h, _, rfl, execEffect_pullStream _ n s (by simpa using h)⟩
  | rdblk br => exact .inr ⟨rfl, _, rfl, .read _ _ _⟩
  | ldcanon br => exact .inr ⟨rfl, _, rfl, .block _ br _ _ (by simp [writesBlk])⟩
  | rdunp => exact .inr ⟨rfl, _, rfl, .read _ _ _⟩
  | pack br => exact .inr ⟨rfl, _, rfl, .block _ br _ _ (by simp [writesBlk])⟩
  | unpack br =>
    exact .inr ⟨rfl, _, rfl, .cells _ _ (.inr ⟨br, rfl⟩) (cellsBinary_unpackBlock (readBlk br s))⟩
  | bitpack br => exact .inr ⟨rfl, _, rfl, .block _ br _ _ (by simp [writesBlk])⟩
  | step => exact .inr ⟨rfl, _, rfl, .block _ .row _ _ rfl⟩
  | eval => exact .inr ⟨rfl, _, rfl, .rowAndColumn _ _ _ rfl rfl⟩
  | compress => exact .inr ⟨rfl, _, rfl, .rowAndColumn _ _ _ rfl rfl⟩
  | strinit n => exact .inr ⟨rfl, _, rfl, .configure n⟩
  | rdstat => exact .inr ⟨rfl, _, rfl, .read _ _ _⟩
  | rdrem => exact .inr ⟨rfl, _, rfl, .read _ _ _⟩

/-- A command on the port either takes one fault, whose code is R163's, or is an instruction that
completes. -/
theorem runCommand_effect (c : Command) (s : State) :
    (∃ f, commandCode c s = faultCode f ∧ runCommand c s = .next (takeFault f s)) ∨
    (commandCode c s = 0 ∧ ∃ i t, decode c = .ok i ∧ runCommand c s = .next t ∧ ExecEffect s i t) := by
  unfold runCommand
  cases hd : decode c with
  | error e => exact .inl ⟨faultOfDecode e, commandCode_of_error s hd, rfl⟩
  | ok i =>
    rw [commandCode_of_ok s hd]
    rcases exec_effect i s with hf | ⟨h0, t, ht, he⟩
    · exact .inl hf
    · exact .inr ⟨h0, i, t, rfl, ht, he⟩

/-- The state a command leaves: a fault's with R163's code, or what its instruction's effect makes of it. -/
theorem runCommand_next {c : Command} {s t : State} (h : runCommand c s = .next t) :
    (∃ f, commandCode c s = faultCode f ∧ t = takeFault f s) ∨
    ∃ i, decode c = .ok i ∧ ExecEffect s i t := by
  rcases runCommand_effect c s with ⟨f, hf, hu⟩ | ⟨-, i, u, hd, hu, he⟩
  · rw [hu] at h
    cases h
    exact .inl ⟨f, hf, rfl⟩
  · rw [hu] at h
    cases h
    exact .inr ⟨i, hd, he⟩

namespace ExecEffect

variable {s t : State} {i : Instr}

/-- One response with code 0, the port and the fault record untouched. -/
theorem completes (h : ExecEffect s i t) : Completes s t := by
  cases h with
  | block => exact completes_respond _ _ _ _ _ (by simp) (by simp) (by simp) (by simp)
  | _ => exact completes_respond _ _ _ _ _ rfl rfl rfl rfl

/-- R20: a block register is changed only by a command listed as its writer. -/
theorem readBlk_eq (h : ExecEffect s i t) (br : Br) (hw : writesBlk br i = false) :
    readBlk br t = readBlk br s := by
  cases h with
  | block _ b v _ hb =>
    have hne : br ≠ b := by rintro rfl; simp [hw] at hb
    rw [readBlk_respond, readBlk_writeBlk_other b v s br hne]
  | rowAndColumn _ _ _ hrow hcc =>
    cases br with
    | row => simp [hw] at hrow
    | cc => simp [hw] at hcc
    | seed => rfl
  | pull | pullLast =>
    cases br with
    | seed => simp [writesBlk] at hw
    | row | cc => rfl
  | read | cells | configure => cases br <;> rfl

/-- R24: UNP is changed only by WRUNP and UNPACK, which put 0 and 1 in it. -/
theorem unp_cases (h : ExecEffect s i t) : t.unp = s.unp ∨
    (CellsBinary t.unp ∧ ((∃ data, i = .wrunp data) ∨ ∃ br, i = .unpack br)) := by
  cases h with
  | cells _ _ hi hu => exact .inr ⟨hu, hi⟩
  | block => exact .inl (by simp)
  | _ => exact .inl rfl

/-- R25, R26: REM and the stream's fields of STATUS are changed only by STRINIT, by a PULL that leaves a
budget, and by the PULL that uses it up. -/
theorem stream_cases (h : ExecEffect s i t) :
    (t.rem = s.rem ∧ t.status = s.status) ∨
    (∃ n, i = .strinit n ∧ t.rem = n ∧ t.status = configureStatus n s.status) ∨
    (∃ n, i = .pull n ∧ t.rem ≠ 0 ∧ t.status = s.status ∧ s.status.init = true ∧
      s.status.unb = false ∧ s.status.eos = false) ∨
    (∃ n, i = .pull n ∧ t.rem = 0 ∧ t.status = { s.status with eos := true } ∧ s.status.init = true ∧
      s.status.unb = false) := by
  cases h with
  | read | block | rowAndColumn | cells => exact .inl ⟨by simp, by simp⟩
  | configure n => exact .inr (.inl ⟨n, rfl, rfl, rfl⟩)
  | pull n _ _ _ hinit hunb heos hleft =>
    exact .inr (.inr (.inl ⟨n, rfl, hleft, rfl, hinit, hunb, heos⟩))
  | pullLast n _ _ hinit hunb => exact .inr (.inr (.inr ⟨n, rfl, rfl, rfl, hinit, hunb⟩))

end ExecEffect

end Sys2Proof.Machine
end

section
/-! PROOFS. The invariant, the responses, and who writes each register (10_state.md). -/

namespace Sys2Proof.Machine

/-! ## The invariant -/

/-- R160: every fault's code is one of 1..5. -/
theorem faultCode_bounds (f : Fault) : faultCode f ≠ 0 ∧ (faultCode f).toNat ≤ 5 := by
  cases f <;> decide

/-- R161, R162: recording a fault sets ERR, and ERRCODE to a code if there was none. -/
theorem faultRecordConsistent_recordFault (f : Fault) (st : Status) (h : FaultRecordConsistent st) :
    FaultRecordConsistent (recordFault f st) := by
  have hcode : (faultCode f).setWidth 4 ≠ 0 ∧ ((faultCode f).setWidth 4).toNat ≤ 5 := by
    cases f <;> decide
  unfold FaultRecordConsistent
  rw [recordFault_err, recordFault_errcode]
  split
  · exact ⟨iff_of_true rfl hcode.1, hcode.2⟩
  · next h0 => exact ⟨iff_of_true rfl h0, h.2⟩

/-- One more well-formed response. -/
theorem responseFormed_append {rs : List Response} {r : Response} (h : ∀ x ∈ rs, ResponseFormed x)
    (hr : ResponseFormed r) : ∀ x ∈ rs ++ [r], ResponseFormed x := by
  intro x hx
  rcases List.mem_append.1 hx with hx | hx
  · exact h x hx
  · rw [List.mem_singleton.1 hx]; exact hr

/-- Taking a fault keeps the invariant. -/
theorem coreInvariant_takeFault (f : Fault) (s : State) (h : CoreInvariant s) :
    CoreInvariant (takeFault f s) := by
  obtain ⟨hcells, hstream, hfault, hresp⟩ := h
  refine ⟨hcells, hstream, faultRecordConsistent_recordFault f s.status hfault, ?_⟩
  exact responseFormed_append hresp ⟨(faultCode_bounds f).2, fun _ => ⟨rfl, rfl, rfl⟩⟩

/-- R134: a stream just configured is consistent: unbounded with REM 0, or bounded with REM above 0. -/
theorem streamConsistent_configureStatus (n : Word) (st : Status) :
    StreamConsistent (configureStatus n st) n := by
  by_cases hn : n = 0 <;> simp [StreamConsistent, hn]

namespace ExecEffect

variable {s t : State} {i : Instr}

/-- R24: a completed command keeps cells of 0 and 1. -/
theorem cellsBinary (h : ExecEffect s i t) (hs : CellsBinary s.unp) : CellsBinary t.unp := by
  rcases h.unp_cases with hu | ⟨hu, -⟩
  · rw [hu]; exact hs
  · exact hu

/-- R25, R26: a completed command keeps REM and STATUS consistent. -/
theorem streamConsistent (h : ExecEffect s i t) (hs : StreamConsistent s.status s.rem) :
    StreamConsistent t.status t.rem := by
  rcases h.stream_cases with ⟨hr, hst⟩ | ⟨n, -, hr, hst⟩ | ⟨n, -, hr, hst, hinit, hunb, heos⟩ |
    ⟨n, -, hr, hst, hinit, hunb⟩
  · rw [hr, hst]; exact hs
  · rw [hr, hst]; exact streamConsistent_configureStatus n s.status
  · simpa [StreamConsistent, hst, hinit, hunb, heos] using hr
  · simp [StreamConsistent, hst, hinit, hunb, hr]

/-- A completed command keeps the invariant. -/
theorem coreInvariant (h : ExecEffect s i t) (hs : CoreInvariant s) : CoreInvariant t := by
  obtain ⟨hcells, hstream, hfault, hresp⟩ := hs
  obtain ⟨⟨v, bs, e, hr⟩, -, herr, hcode⟩ := h.completes
  refine ⟨h.cellsBinary hcells, h.streamConsistent hstream, ?_, ?_⟩
  · unfold FaultRecordConsistent
    rw [herr, hcode]
    exact hfault
  · rw [hr]
    exact responseFormed_append hresp ⟨Nat.zero_le 5, fun h0 => absurd rfl h0⟩

end ExecEffect

/-- Every command keeps the invariant. -/
theorem coreInvariant_runCommand {c : Command} {s t : State} (hs : CoreInvariant s)
    (h : runCommand c s = .next t) : CoreInvariant t := by
  rcases runCommand_next h with ⟨f, -, rfl⟩ | ⟨i, -, he⟩
  · exact coreInvariant_takeFault f s hs
  · exact he.coreInvariant hs

/-- Settles O17: every field of the reset state is 0, false or empty. -/
theorem resetStateMeetsTheInvariant : Obligations.ResetStateMeetsTheInvariant := by
  unfold Obligations.ResetStateMeetsTheInvariant
  refine ⟨?_, ?_, ?_, ?_⟩
  · decide +kernel
  · decide
  · decide
  · intro r hr
    cases hr

/-- Reset puts every element at its reset value and keeps the responses, whose form is the invariant's. -/
theorem coreInvariant_resetCore (s : State) (h : CoreInvariant s) : CoreInvariant (resetCore s) := by
  obtain ⟨-, -, -, hresp⟩ := h
  obtain ⟨hcells, hstream, hfault, -⟩ := resetStateMeetsTheInvariant
  exact ⟨hcells, hstream, hfault, hresp⟩

/-- Settles O18: an idle step changes nothing, a command keeps the invariant, and a reset restores it. -/
theorem everyStepKeepsTheInvariant : Obligations.EveryStepKeepsTheInvariant := by
  unfold Obligations.EveryStepKeepsTheInvariant
  intro s t hs h
  rcases step_cases s with ⟨-, hstep⟩ | ⟨c, rest, -, hstep⟩ | ⟨rest, -, hstep⟩
  · rw [hstep] at h
    cases h
    exact hs
  · rw [hstep] at h
    exact coreInvariant_runCommand (s := { s with pending := rest }) hs h
  · rw [hstep] at h
    cases h
    exact coreInvariant_resetCore { s with pending := rest } hs

/-! ## One response per command -/

/-- R30, R164: every command answers, with one response more than before, and takes nothing from the port. -/
theorem runCommand_response (c : Command) (s : State) :
    ∃ t r, runCommand c s = .next t ∧ t.pending = s.pending ∧ t.responses = s.responses ++ [r] := by
  rcases runCommand_effect c s with ⟨f, -, hf⟩ | ⟨-, i, t, -, ht, he⟩
  · exact ⟨_, _, hf, rfl, rfl⟩
  · obtain ⟨⟨v, bs, e, hr⟩, hp, -, -⟩ := he.completes
    exact ⟨t, _, ht, hp, hr⟩

/-- Settles O5: an idle step and a reset append no response, and a command appends one. -/
theorem everyCommandGetsExactlyOneResponse : Obligations.EveryCommandGetsExactlyOneResponse := by
  unfold Obligations.EveryCommandGetsExactlyOneResponse
  intro s
  rcases step_cases s with ⟨hp, hstep⟩ | ⟨c, rest, hp, hstep⟩ | ⟨rest, hp, hstep⟩
  · exact ⟨s, hstep, fun c rest h => by simp [hp] at h, fun _ => rfl⟩
  · obtain ⟨t, r, ht, hpend, hresp⟩ := runCommand_response c { s with pending := rest }
    refine ⟨t, hstep.trans ht, fun c' rest' h => ?_, fun hno => absurd hp (hno c rest)⟩
    rw [hp] at h
    cases h
    exact ⟨hpend, r, hresp⟩
  · refine ⟨_, hstep, fun c rest' h => ?_, fun _ => rfl⟩
    rcases hp with hp | ⟨c', hp⟩ <;> rw [hp] at h <;> cases h

/-! ## Who writes each register -/

section Writers

variable {c : Command} {s t : State}

/-- R20: a command that changes a block register is an instruction listed as its writer. -/
theorem runCommand_readBlk (h : runCommand c s = .next t) (br : Br) :
    readBlk br t = readBlk br s ∨ ∃ i, decode c = .ok i ∧ writesBlk br i = true := by
  rcases runCommand_next h with ⟨f, -, rfl⟩ | ⟨i, hd, he⟩
  · exact .inl (by cases br <;> rfl)
  · cases hw : writesBlk br i with
    | false => exact .inl (he.readBlk_eq br hw)
    | true => exact .inr ⟨i, hd, hw⟩

/-- R24: a command that changes UNP is a WRUNP or an UNPACK. -/
theorem runCommand_unp (h : runCommand c s = .next t) :
    t.unp = s.unp ∨ ∃ i, decode c = .ok i ∧ ((∃ data, i = .wrunp data) ∨ ∃ br, i = .unpack br) := by
  rcases runCommand_next h with ⟨f, -, rfl⟩ | ⟨i, hd, he⟩
  · exact .inl rfl
  · exact he.unp_cases.imp_right fun ⟨_, hi⟩ => ⟨i, hd, hi⟩

/-- R25, R26: STRINIT sets REM, INIT, UNB and EOS; PULL moves REM and may set EOS, with REM then 0. -/
theorem runCommand_stream (h : runCommand c s = .next t) :
    (t.rem = s.rem ∧ t.status.init = s.status.init ∧ t.status.unb = s.status.unb ∧
      t.status.eos = s.status.eos) ∨
    (∃ n, decode c = .ok (.strinit n) ∧ t.status.init = true ∧ t.status.unb = (n == 0) ∧
      t.status.eos = false) ∨
    (∃ n, decode c = .ok (.pull n) ∧ t.status.init = s.status.init ∧ t.status.unb = s.status.unb ∧
      (t.status.eos = s.status.eos ∨ (t.status.eos = true ∧ t.rem = 0))) := by
  rcases runCommand_next h with ⟨f, -, rfl⟩ | ⟨i, hd, he⟩
  · exact .inl ⟨rfl, rfl, rfl, rfl⟩
  · rcases he.stream_cases with ⟨hr, hst⟩ | ⟨n, rfl, -, hst⟩ | ⟨n, rfl, -, hst, -⟩ | ⟨n, rfl, hr, hst, -⟩
    · exact .inl (by simp [hr, hst])
    · exact .inr (.inl ⟨n, hd, by simp [hst]⟩)
    · exact .inr (.inr ⟨n, hd, by simp [hst]⟩)
    · exact .inr (.inr ⟨n, hd, by simp [hst, hr]⟩)

/-- R161, R162: ERR and ERRCODE are changed only by a fault, which records R163's code if it is the first. -/
theorem runCommand_faultRecord (h : runCommand c s = .next t) :
    (t.status.err = s.status.err ∧ t.status.errcode = s.status.errcode) ∨
    (commandCode c s ≠ 0 ∧ t.status.err = true ∧ t.status.errcode =
      if s.status.errcode = 0 then (commandCode c s).setWidth 4 else s.status.errcode) := by
  rcases runCommand_next h with ⟨f, hf, rfl⟩ | ⟨i, -, he⟩
  · rw [hf]
    exact .inr ⟨(faultCode_bounds f).1, rfl, rfl⟩
  · obtain ⟨-, -, herr, hcode⟩ := he.completes
    exact .inl ⟨herr, hcode⟩

end Writers

/-- Settles O19: each clause is the case of the register's own lemma in which it changed. -/
theorem onlyTheListedCommandsWriteEachRegister : Obligations.OnlyTheListedCommandsWriteEachRegister := by
  unfold Obligations.OnlyTheListedCommandsWriteEachRegister
  intro s c rest t hp h
  rw [step_of_command s c rest hp] at h
  refine ⟨fun br hne => (runCommand_readBlk h br).resolve_left fun e => hne ?_,
    (runCommand_unp h).resolve_left, ?_⟩
  · rw [e]
    cases br <;> rfl
  have hfault : (t.status.err ≠ s.status.err → t.status.err = true ∧ commandCode c s ≠ 0) ∧
      (t.status.errcode ≠ s.status.errcode → s.status.errcode = 0 ∧ commandCode c s ≠ 0 ∧
        t.status.errcode = (commandCode c s).setWidth 4) := by
    rcases runCommand_faultRecord h with ⟨herr, hcode⟩ | ⟨hne, herr, hcode⟩
    · exact ⟨absurd herr, absurd hcode⟩
    · refine ⟨fun _ => ⟨herr, hne⟩, fun hch => ?_⟩
      by_cases h0 : s.status.errcode = 0
      · exact ⟨h0, hne, hcode.trans (if_pos h0)⟩
      · exact absurd (hcode.trans (if_neg h0)) hch
  rcases runCommand_stream h with ⟨hr, hi, hu, he⟩ | ⟨n, hd, hi, hu, he⟩ | ⟨n, hd, hi, hu, he⟩
  · exact ⟨absurd hr, absurd hi, absurd hu, absurd he, hfault⟩
  · exact ⟨fun _ => ⟨n, .inl hd⟩, fun _ => ⟨hi, n, hd⟩, fun _ => ⟨n, hd, hu⟩,
      fun _ => .inl ⟨he, n, hd⟩, hfault⟩
  · refine ⟨fun _ => ⟨n, .inr hd⟩, absurd hi, absurd hu, fun hne => .inr ?_, hfault⟩
    obtain ⟨heos, hr⟩ := he.resolve_left hne
    exact ⟨heos, hr, n, hd⟩

end Sys2Proof.Machine
end

section
/-! PROOFS. Who reads each block register (10_state.md). -/

namespace Sys2Proof.Machine

/-! ## Who reads each block register -/

/-- R164: every command answers a next state. -/
theorem exec_next (i : Instr) (s : State) : ∃ t, exec i s = .next t := by
  rcases exec_effect i s with ⟨f, -, h⟩ | ⟨-, t, h, -⟩
  · exact ⟨_, h⟩
  · exact ⟨t, h⟩

section Commute

variable (br : Br) (v : Block) (s : State)

/-- Responding and writing a block register are independent. -/
theorem respond_writeBlk (w : Word) (bs : List Byte) (e : Bool) :
    respond w bs e (writeBlk br v s) = writeBlk br v (respond w bs e s) := by
  cases br <;> rfl

/-- Taking a fault and writing a block register are independent. -/
theorem takeFault_writeBlk (f : Fault) : takeFault f (writeBlk br v s) = writeBlk br v (takeFault f s) := by
  cases br <;> rfl

/-- Writes of different block registers are independent. -/
theorem writeBlk_comm {b : Br} (h : b ≠ br) (w : Block) :
    writeBlk b w (writeBlk br v s) = writeBlk br v (writeBlk b w s) := by
  cases b <;> cases br <;> simp [writeBlk] at h ⊢

/-- A delivery does not depend on a block register other than SEED. -/
theorem deliver_writeBlk (order : TruncOrder) (n : Word) (h : br ≠ .seed) :
    deliver order n (writeBlk br v s) = writeBlk br v (deliver order n s) := by
  simp only [deliver, apply_ite (writeBlk br v)]
  cases br with
  | seed => exact absurd rfl h
  | row | cc => rfl

/-- R135: PULL does not depend on a block register other than SEED. -/
theorem pullStream_writeBlk (order : TruncOrder) (n : Word) (h : br ≠ .seed) :
    pullStream order n (writeBlk br v s) = writeBlk br v (pullStream order n s) := by
  simp only [pullStream, writeBlk_status, takeFault_writeBlk, respond_writeBlk,
    deliver_writeBlk br v s order n h, apply_ite (writeBlk br v)]

end Commute

/-- A command that neither reads a block register nor writes it (a WRBLK of a wrong length writes none) does
the same whatever it holds, and leaves it as it is. -/
theorem exec_writeBlk_of_not_writes {i : Instr} {br : Br} (hr : readsBlk br i = false)
    (hw : writesBlk br i = false ∨ i.wellFormed = false) (v : Block) {s t : State} (h : exec i s = .next t) :
    exec i (writeBlk br v s) = .next (writeBlk br v t) := by
  cases i with
  | getbit b idx =>
    have hb : b ≠ br := by simpa [readsBlk] using hr
    rw [exec, execGetbit] at h ⊢
    split at h <;> cases h
    · next h1 => rw [if_pos h1, takeFault_writeBlk]
    · next h1 => rw [if_neg h1, readBlk_writeBlk_other br v s b hb, respond_writeBlk]
  | setbit b idx val =>
    have hb : b ≠ br := by simpa [writesBlk, Instr.wellFormed] using hw
    rw [exec, execSetbit] at h ⊢
    split at h <;> cases h
    · next h1 => rw [if_pos h1, takeFault_writeBlk]
    · next h1 => rw [if_neg h1, readBlk_writeBlk_other br v s b hb, writeBlk_comm br v s hb, respond_writeBlk]
  | wrblk b data =>
    rw [exec, execWrblk] at h ⊢
    split at h <;> cases h
    · next h1 => rw [if_pos h1, takeFault_writeBlk]
    · next h1 =>
      have hb : b ≠ br := by
        rw [not_not] at h1
        simpa [writesBlk, Instr.wellFormed, h1] using hw
      rw [if_neg h1, writeBlk_comm br v s hb, respond_writeBlk]
  | wrunp data =>
    rw [exec, execWrunp] at h ⊢
    split at h
    · next h1 => cases h; rw [if_pos h1, takeFault_writeBlk]
    · next h1 =>
      rw [if_neg h1]
      split at h <;> cases h
      · next h2 => rw [if_pos h2, takeFault_writeBlk]
      · next h2 => rw [if_neg h2]; cases br <;> rfl
  | pull n =>
    have hb : br ≠ .seed := by simpa [readsBlk] using hr
    cases h
    exact congrArg _ (pullStream_writeBlk br v s _ n hb)
  | ldcanon b | pack b | bitpack b =>
    have hb : b ≠ br := by simpa [writesBlk, Instr.wellFormed] using hw
    cases h
    simp only [exec, execLdcanon, execPack, execBitpack, writeBlk_unp, writeBlk_comm br v s hb, respond_writeBlk]
  | rdblk b | unpack b =>
    have hb : b ≠ br := by simpa [readsBlk] using hr
    cases h
    simp only [exec, execRdblk, execUnpack, readBlk_writeBlk_other br v s b hb]
    cases br <;> rfl
  | step =>
    cases h
    cases br with
    | row => cases hr
    | cc | seed => rfl
  | eval | compress =>
    cases h
    cases br with
    | row => cases hr
    | cc => simp [writesBlk, Instr.wellFormed] at hw
    | seed => rfl
  | rdunp | rdstat | rdrem | strinit =>
    cases h
    cases br <;> rfl

/-- A command that writes all of a block register and reads none of it does the same whatever it held. -/
theorem exec_writeBlk_of_overwrites {i : Instr} {br : Br} (hr : readsBlk br i = false)
    (hw : writesBlk br i = true) (hwf : i.wellFormed = true) (hset : ∀ idx val, i ≠ .setbit br idx val)
    (v : Block) (s : State) : exec i (writeBlk br v s) = exec i s := by
  cases i with
  | setbit b idx val =>
    have hb : b = br := by simpa [writesBlk] using hw
    exact absurd (hb ▸ rfl) (hset idx val)
  | wrblk b data =>
    have hb : b = br := by simpa [writesBlk] using hw
    have hl : data.length = 16 := by simpa [Instr.wellFormed] using hwf
    simp [exec, execWrblk, hb, hl]
  | ldcanon b | pack b | bitpack b =>
    have hb : b = br := by simpa [writesBlk] using hw
    simp [exec, execLdcanon, execPack, execBitpack, hb]
  | eval | compress =>
    cases br with
    | row => cases hr
    | cc => rfl
    | seed => cases hw
  | step | pull => cases hr.symm.trans hw
  | _ => cases hw

/-- SETBIT of a register that holds `v`: everything else is as it is whatever `v` is, and the register keeps
every bit of `v` but the addressed one. -/
theorem exec_setbit_writeBlk (br : Br) (idx : BitVec 8) (val : Bool) (v : Block) {s t : State}
    (h : exec (.setbit br idx val) s = .next t) :
    ∃ t', exec (.setbit br idx val) (writeBlk br v s) = .next t' ∧ writeBlk br 0 t' = writeBlk br 0 t ∧
      ∀ j < 128, (readBlk br t').getLsbD j = if j = idx.toNat then val else v.getLsbD j := by
  rw [exec, execSetbit] at h ⊢
  split at h <;> cases h
  · next h1 =>
    refine ⟨_, if_pos h1, by rw [takeFault_writeBlk, writeBlk_writeBlk], fun j hj => ?_⟩
    have hne : j ≠ idx.toNat := by omega
    rw [takeFault_writeBlk, readBlk_writeBlk_same, if_neg hne]
  · next h1 =>
    refine ⟨_, if_neg h1, ?_, fun j _ => ?_⟩
    · simp only [respond_writeBlk, writeBlk_writeBlk]
    · rw [readBlk_respond, readBlk_writeBlk_same, readBlk_writeBlk_same,
        getLsbD_setBlockBit v idx.toNat val j (by omega)]

/-- Settles O20: a command that writes nothing of the register, one that writes all of it, and SETBIT. -/
theorem unlistedCommandsDoNotReadTheBlock : Obligations.UnlistedCommandsDoNotReadTheBlock := by
  unfold Obligations.UnlistedCommandsDoNotReadTheBlock
  intro i br v s hr
  obtain ⟨t, ht⟩ := exec_next i s
  by_cases hkeep : writesBlk br i = false ∨ i.wellFormed = false
  · refine ⟨t, _, ht, exec_writeBlk_of_not_writes hr hkeep v ht, writeBlk_writeBlk br v t 0, fun _ => rfl,
      fun hw hwf => ?_, ?_⟩
    · simp [hw, hwf] at hkeep
    · rintro idx val rfl
      simp [writesBlk, Instr.wellFormed] at hkeep
  · obtain ⟨hw, hwf⟩ : writesBlk br i = true ∧ i.wellFormed = true := by simpa using hkeep
    by_cases hset : ∃ idx val, i = .setbit br idx val
    · obtain ⟨idx, val, rfl⟩ := hset
      obtain ⟨t', ht', hrest, hbits⟩ := exec_setbit_writeBlk br idx val v ht
      refine ⟨t, t', ht, ht', hrest, fun h => absurd h hkeep, fun _ _ h => absurd rfl (h idx val), ?_⟩
      rintro idx' val' ⟨⟩
      exact hbits
    · push Not at hset
      exact ⟨t, t, ht, (exec_writeBlk_of_overwrites hr hw hwf hset v s).trans ht, rfl,
        fun h => absurd h hkeep, fun _ _ _ => rfl, fun idx val h => absurd h (hset idx val)⟩

end Sys2Proof.Machine
end

section
/-! PROOFS. The packed form of a block, the decoded command of a step, and the read commands
(20_memory.md). -/

namespace Sys2Proof.Machine

/-! ## The packed form -/

/-- R41: bit `i` of a block stands in its packed bytes where `packedBit` looks for it. -/
theorem packedBit_packed (v : Block) (i : Nat) (hi : i < 128) : packedBit (packed v) i = v.getLsbD i := by
  have hplace : 120 - 8 * (16 - i / 8 - 1) + i % 8 = i := by omega
  have hoffset : i % 8 < 8 := Nat.mod_lt i (by decide)
  rw [packedBit, getD_packed v _ (by omega), BitVec.getLsbD_extractLsb', hplace]
  simp [hoffset]

/-- R42: unpacking the packed bytes of a block gives the block back. -/
theorem blockOf_packed (v : Block) : blockOf (packed v) = v := by
  apply BitVec.eq_of_getLsbD_eq
  intro i hi
  rw [getLsbD_blockOf _ (length_packed v) i hi, packedBit_packed v i hi]

/-- Sixteen bytes are fixed by their 128 bits: bit `k` of byte `j` is bit `8 * (15 - j) + k`. -/
theorem bytes_ext_packedBit {bs cs : List Byte} (hb : bs.length = 16) (hc : cs.length = 16)
    (h : ∀ i < 128, packedBit bs i = packedBit cs i) : bs = cs := by
  apply List.ext_getElem (hb.trans hc.symm)
  intro j hjb hjc
  apply BitVec.eq_of_getLsbD_eq
  intro k hk
  have hbyte : 16 - (8 * (15 - j) + k) / 8 - 1 = j := by omega
  have hoffset : (8 * (15 - j) + k) % 8 = k := by omega
  have hbit := h (8 * (15 - j) + k) (by omega)
  rw [packedBit, packedBit, hbyte, hoffset] at hbit
  rwa [List.getD_eq_getElem _ _ hjb, List.getD_eq_getElem _ _ hjc] at hbit

/-- R42: packing the block of 16 bytes gives the bytes back. -/
theorem packed_blockOf {bytes : List Byte} (hl : bytes.length = 16) : packed (blockOf bytes) = bytes := by
  apply bytes_ext_packedBit (length_packed _) hl
  intro i hi
  rw [packedBit_packed _ i hi, getLsbD_blockOf bytes hl i hi]

/-- A big-endian value is the sum of its bytes, each with the weight of its place. -/
theorem bigEndian_eq_sum (bytes : List Byte) : bigEndian bytes =
    ((List.range bytes.length).map fun j => (bytes.getD j 0).toNat * 2 ^ (8 * (bytes.length - 1 - j))).sum := by
  induction bytes using List.reverseRecOn with
  | nil => rfl
  | append_singleton bs b ih =>
    have hfront : ∀ j ∈ List.range bs.length,
        ((bs ++ [b]).getD j 0).toNat * 2 ^ (8 * (bs.length - j)) =
          (bs.getD j 0).toNat * 2 ^ (8 * (bs.length - 1 - j)) * 256 := by
      intro j hj
      rw [List.mem_range] at hj
      have hweight : 8 * (bs.length - j) = 8 * (bs.length - 1 - j) + 8 := by omega
      rw [List.getD_append _ _ _ _ hj, hweight, pow_add, ← mul_assoc]
      rfl
    rw [bigEndian_concat, ih, ← List.sum_map_mul_right, ← List.map_congr_left hfront]
    simp [List.range_succ]

/-- A big-endian value fits in its bytes. -/
theorem bigEndian_lt (bytes : List Byte) : bigEndian bytes < 256 ^ bytes.length := by
  induction bytes using List.reverseRecOn with
  | nil => decide
  | append_singleton bs b ih =>
    have hb : b.toNat < 256 := b.isLt
    rw [bigEndian_concat, List.length_append, List.length_singleton, pow_succ]
    omega

/-- R42: the block of 16 bytes has their big-endian value. -/
theorem toNat_blockOf {bytes : List Byte} (hl : bytes.length = 16) :
    (blockOf bytes).toNat = bigEndian bytes := by
  have hlt : bigEndian bytes < 2 ^ 128 := by simpa [hl] using bigEndian_lt bytes
  rw [blockOf, BitVec.toNat_ofNat, Nat.mod_eq_of_lt hlt]

/-- Settles O22: the two forms agree bit by bit, and the block's value is its bytes' weighted sum. -/
theorem packedFormIsTheBigEndianSerialization : Obligations.PackedFormIsTheBigEndianSerialization := by
  unfold Obligations.PackedFormIsTheBigEndianSerialization
  refine ⟨fun v => ⟨length_packed v, blockOf_packed v, getD_packed v, packedBit_packed v⟩, fun b hb => ?_⟩
  have hsum := bigEndian_eq_sum b
  rw [hb] at hsum
  exact ⟨packed_blockOf hb, (toNat_blockOf hb).trans hsum⟩

/-! ## The decoded command of a step -/

/-- R65: a command that decodes is run. -/
theorem runCommand_of_ok {c : Command} {i : Instr} (s : State) (h : decode c = .ok i) :
    runCommand c s = exec i s := by
  rw [runCommand, h]

/-- R65, R161: a command the decoder rejects takes the fault of the decoder's error. -/
theorem runCommand_of_error {c : Command} {e : DecodeError} (s : State) (h : decode c = .error e) :
    runCommand c s = .next (faulted (faultCode (faultOfDecode e)) s) := by
  rw [runCommand, h, ← takeFault_eq_faulted]

/-- Settles O4: a step with a command next runs it, and the decoder's two errors have codes 1 and 3. -/
theorem stepRunsTheDecodedCommand : Obligations.StepRunsTheDecodedCommand := by
  unfold Obligations.StepRunsTheDecodedCommand
  intro s c rest hp
  rw [step_of_command s c rest hp]
  exact ⟨fun i h => runCommand_of_ok _ h, fun h => runCommand_of_error _ h, fun h => runCommand_of_error _ h⟩

/-! ## The read commands -/

/-- The read commands of R48: GETBIT within the block, RDBLK, RDUNP, RDSTAT and RDREM. -/
def IsReadCommand (i : Instr) : Prop :=
  (∃ br, ∃ idx : BitVec 8, idx.toNat ≤ 127 ∧ i = .getbit br idx) ∨ (∃ br, i = .rdblk br) ∨
    i = .rdunp ∨ i = .rdstat ∨ i = .rdrem

/-- What a block register holds does not depend on the responses given so far. -/
theorem readBlk_withResponses (br : Br) (s : State) (rs : List Response) :
    readBlk br { s with responses := rs } = readBlk br s := by
  cases br <;> rfl

/-- R48: a read command gives one answer, which no earlier response changes, and does nothing else. -/
theorem exec_of_isReadCommand {i : Instr} (s : State) (h : IsReadCommand i) :
    ∃ value bytes, ∀ rs, exec i { s with responses := rs } =
      .next { s with responses := rs ++ [okResponse value bytes false] } := by
  rcases h with ⟨br, idx, hidx, rfl⟩ | ⟨br, rfl⟩ | rfl | rfl | rfl
  · refine ⟨(BitVec.ofBool ((readBlk br s).getLsbD idx.toNat)).setWidth 32, [], fun rs => ?_⟩
    rw [exec, execGetbit, if_neg (Nat.not_lt.2 hidx), readBlk_withResponses]
    rfl
  · refine ⟨0, packed (readBlk br s), fun rs => ?_⟩
    rw [exec, execRdblk, readBlk_withResponses]
    rfl
  · exact ⟨0, s.unp.toList, fun _ => rfl⟩
  · exact ⟨statusWord s.status, [], fun _ => rfl⟩
  · exact ⟨s.rem, [], fun _ => rfl⟩

/-- Settles O21: the second command runs on the same state with one response more. -/
theorem readCommandsAreIdempotent : Obligations.ReadCommandsAreIdempotent := by
  unfold Obligations.ReadCommandsAreIdempotent
  intro s i hi
  obtain ⟨value, bytes, hexec⟩ := exec_of_isReadCommand s hi
  have hfirst := hexec s.responses
  have hsecond := hexec (s.responses ++ [okResponse value bytes false])
  rw [List.append_assoc] at hsecond
  refine ⟨okResponse value bytes false, rfl, hfirst, ?_⟩
  rw [execAll_cons hfirst, execAll_cons hsecond]
  rfl

end Sys2Proof.Machine
end

section
/-! SUPPORT. The command word as its fields, the commands the decoder accepts, and what the encoder makes of
them (30_encoding.md). -/

namespace Sys2Proof.Machine

open Sys2Proof.Laws

/-! ## A word is its six fields (R61) -/

/-- RSV1 of R61, bits [15:10]. -/
def rsv1Field (w : Word) : BitVec 6 := w.extractLsb' 10 6

/-- RSV2 of R61, bits [31:25]. -/
def rsv2Field (w : Word) : BitVec 7 := w.extractLsb' 25 7

/-- Words with the same `n` bits from bit `k` on agree on those bits. -/
theorem getLsbD_eq_of_extractLsb'_eq {w x : Word} {k n i : Nat} (h : w.extractLsb' k n = x.extractLsb' k n)
    (hk : k ≤ i) (hn : i < k + n) : w.getLsbD i = x.getLsbD i := by
  have hi : i - k < n := by omega
  simpa [hi, hk] using congrArg (BitVec.getLsbD · (i - k)) h

/-- R61: two words are the same exactly when their six fields are. -/
theorem word_eq_iff_fields (w x : Word) : w = x ↔
    opcField w = opcField x ∧ brField w = brField x ∧ rsv1Field w = rsv1Field x ∧
      idxField w = idxField x ∧ valField w = valField x ∧ rsv2Field w = rsv2Field x := by
  refine ⟨fun h => by simp [h], fun ⟨hopc, hbr, hrsv1, hidx, hval, hrsv2⟩ => ?_⟩
  apply BitVec.eq_of_getLsbD_eq
  intro i hi
  by_cases h8 : i < 8
  · exact getLsbD_eq_of_extractLsb'_eq hopc (by omega) (by omega)
  by_cases h10 : i < 10
  · exact getLsbD_eq_of_extractLsb'_eq hbr (by omega) (by omega)
  by_cases h16 : i < 16
  · exact getLsbD_eq_of_extractLsb'_eq hrsv1 (by omega) (by omega)
  by_cases h24 : i < 24
  · exact getLsbD_eq_of_extractLsb'_eq hidx (by omega) (by omega)
  by_cases h25 : i < 25
  · obtain rfl : i = 24 := by omega
    exact hval
  · exact getLsbD_eq_of_extractLsb'_eq hrsv2 (by omega) (by omega)

section FieldAnd

variable (w m : Word)

@[simp] theorem opcField_and : opcField (w &&& m) = opcField w &&& opcField m := BitVec.extractLsb'_and
@[simp] theorem brField_and : brField (w &&& m) = brField w &&& brField m := BitVec.extractLsb'_and
@[simp] theorem rsv1Field_and : rsv1Field (w &&& m) = rsv1Field w &&& rsv1Field m := BitVec.extractLsb'_and
@[simp] theorem idxField_and : idxField (w &&& m) = idxField w &&& idxField m := BitVec.extractLsb'_and
@[simp] theorem rsv2Field_and : rsv2Field (w &&& m) = rsv2Field w &&& rsv2Field m := BitVec.extractLsb'_and
@[simp] theorem valField_and : valField (w &&& m) = (valField w && valField m) := BitVec.getLsbD_and

end FieldAnd

/-- R69: the encoder's words have no bit in RSV1. -/
theorem rsv1Field_wordOf (o : Opcode) (br : BitVec 2) (idx : BitVec 8) (val : Bool) :
    rsv1Field (wordOf o br idx val) = 0 := by
  unfold rsv1Field wordOf
  ext i hi
  have hopc : 8 ≤ 10 + i := by omega
  have hidx : 10 + i < 16 := by omega
  have hval : 10 + i < 24 := by omega
  have hbr : 2 ≤ 10 + i - 8 := by omega
  simp [BitVec.getElem_extractLsb', BitVec.getLsbD_of_ge, hopc, hidx, hval, hbr]

/-- R69: the encoder's words have no bit in RSV2. -/
theorem rsv2Field_wordOf (o : Opcode) (br : BitVec 2) (idx : BitVec 8) (val : Bool) :
    rsv2Field (wordOf o br idx val) = 0 := by
  unfold rsv2Field wordOf
  ext i hi
  have hopc : 8 ≤ 25 + i := by omega
  have hbr : 2 ≤ 25 + i - 8 := by omega
  have hidx : 8 ≤ 25 + i - 16 := by omega
  have hval : 1 ≤ 25 + i - 24 := by omega
  simp [BitVec.getElem_extractLsb', BitVec.getLsbD_of_ge, hopc, hbr, hidx, hval]

/-- A row's OPC value is the word with no other field set. -/
theorem setWidth_opcodeByte (o : Opcode) : (opcodeByte o).setWidth 32 = wordOf o 0 0 false := by
  simp [wordOf]

/-! ## The mask test of R65 -/

/-- R62: the fields that a format does not use are 0. -/
def FitsFormat (f : Format) (br : BitVec 2) (idx : BitVec 8) (val : Bool) : Prop :=
  match f with
  | .fmtN   => br = 0 ∧ idx = 0 ∧ val = false
  | .fmtB   => idx = 0 ∧ val = false
  | .fmtBI  => val = false
  | .fmtBIV => True

/-- R62: a format's mask covers exactly the fields that the format does not use. -/
theorem fitsFormat_iff (f : Format) (br : BitVec 2) (idx : BitVec 8) (val : Bool) :
    FitsFormat f br idx val ↔
      br &&& brField (formatMask f) = 0 ∧ idx &&& idxField (formatMask f) = 0 ∧
        (val && valField (formatMask f)) = false := by
  have hbr : br &&& 3#2 = br := BitVec.and_allOnes
  have hidx : idx &&& 255#8 = idx := BitVec.and_allOnes
  cases f <;> simp [FitsFormat, formatMask, brField, idxField, valField, hbr, hidx]

/-- R62, R65: the mask test passes exactly the words put together from a row's OPC and their own fields,
with the fields that its format does not use 0. -/
theorem and_formatMask_eq_iff_wordOf (w : Word) (o : Opcode) (f : Format) :
    w &&& formatMask f = (opcodeByte o).setWidth 32 ↔
      w = wordOf o (brField w) (idxField w) (valField w) ∧
        FitsFormat f (brField w) (idxField w) (valField w) := by
  have hopc : opcField (formatMask f) = BitVec.allOnes 8 := by cases f <;> rfl
  have hrsv1 : rsv1Field (formatMask f) = BitVec.allOnes 6 := by cases f <;> rfl
  have hrsv2 : rsv2Field (formatMask f) = BitVec.allOnes 7 := by cases f <;> rfl
  rw [fitsFormat_iff, setWidth_opcodeByte, word_eq_iff_fields, word_eq_iff_fields]
  simp only [opcField_and, brField_and, rsv1Field_and, idxField_and, valField_and, rsv2Field_and,
    opcField_wordOf, brField_wordOf, rsv1Field_wordOf, idxField_wordOf, valField_wordOf, rsv2Field_wordOf,
    hopc, hrsv1, hrsv2, BitVec.and_allOnes]
  tauto

/-! ## The accepted commands -/

/-- R65, R69: the accepted commands are those whose word is put together from a row's OPC and the operands
its format uses, with the payload the row requires. -/
theorem decode_eq_ok_iff (c : Command) (i : Instr) : decode c = .ok i ↔
    ∃ o br idx val, c.word = wordOf o (fieldOfBr br) idx val ∧
      FitsFormat (opcodeFormat o) (fieldOfBr br) idx val ∧ c.data.length = opcodeDataLength o ∧
      i = assemble o br idx val c.arg c.data := by
  constructor
  · intro h
    obtain ⟨o, br, -, hmask, hbr, hlen, hi⟩ := decode_ok c i h
    obtain ⟨hword, hfits⟩ := (and_formatMask_eq_iff_wordOf c.word o _).1 hmask
    rw [← fieldOfBr_of_brOfField _ _ hbr] at hword hfits
    exact ⟨o, br, _, _, hword, hfits, hlen, hi⟩
  · rintro ⟨o, br, idx, val, hword, hfits, hlen, rfl⟩
    have hmask : c.word &&& formatMask (opcodeFormat o) = (opcodeByte o).setWidth 32 := by
      rw [and_formatMask_eq_iff_wordOf, hword, brField_wordOf, idxField_wordOf, valField_wordOf]
      exact ⟨rfl, hfits⟩
    rw [hword] at hmask
    simp [decode, hword, opcField_wordOf, opcodeOfByte_opcodeByte, hmask, brField_wordOf,
      brOfField_fieldOfBr, hlen, idxField_wordOf, valField_wordOf]

/-! ## The encoding of an assembled instruction -/

section Assemble

variable {o : Opcode} {br : Br} {idx : BitVec 8} {val : Bool} {arg : Word} {data : List Byte}

/-- R66: an instruction with the payload its row requires is well formed. -/
theorem wellFormed_assemble (h : data.length = opcodeDataLength o) :
    (assemble o br idx val arg data).wellFormed = true := by
  cases o with
  | wrblk | wrunp => exact beq_iff_eq.2 h
  | _ => rfl

/-- R69: the encoder's word has the operands back, where they fit the row's format. -/
theorem word_encode_assemble (h : FitsFormat (opcodeFormat o) (fieldOfBr br) idx val) :
    (encode (assemble o br idx val arg data)).word = wordOf o (fieldOfBr br) idx val := by
  cases o with
  | setbit => rfl
  | getbit =>
    obtain rfl : val = false := h
    rfl
  | wrblk | rdblk | ldcanon | pack | unpack | bitpack =>
    obtain ⟨rfl, rfl⟩ := h
    rfl
  | wrunp | rdunp | step | eval | compress | strinit | pull | rdstat | rdrem =>
    obtain ⟨hbr, rfl, rfl⟩ := h
    rw [hbr]
    rfl

/-- R66, R69: the encoder keeps a payload of the length the row requires. -/
theorem data_encode_assemble (h : data.length = opcodeDataLength o) :
    (encode (assemble o br idx val arg data)).data = data := by
  cases o with
  | wrblk | wrunp => rfl
  | _ => exact (List.length_eq_zero_iff.1 h).symm

/-- R60: the encoder keeps `arg` for STRINIT and PULL. -/
theorem arg_encode_assemble (h : o = .strinit ∨ o = .pull) :
    (encode (assemble o br idx val arg data)).arg = arg := by
  rcases h with rfl | rfl <;> rfl

/-- R60: the instruction of any other row has no `arg`. -/
theorem assemble_arg_irrelevant (h : ¬ (o = .strinit ∨ o = .pull)) (a : Word) :
    assemble o br idx val a data = assemble o br idx val arg data := by
  cases o with
  | strinit => exact absurd (.inl rfl) h
  | pull => exact absurd (.inr rfl) h
  | _ => rfl

end Assemble

/-- R64: the rows of STRINIT and PULL by their OPC values. -/
theorem opcodeByte_eq_strinit_or_pull (o : Opcode) :
    (opcodeByte o).toNat = 0x20 ∨ (opcodeByte o).toNat = 0x21 ↔ o = .strinit ∨ o = .pull := by
  cases o <;> decide

end Sys2Proof.Machine
end

section
/-! PROOFS. The round trip of the encoding, the refused commands, the operand `arg`, and the manual's examples
(30_encoding.md). -/

namespace Sys2Proof.Machine

open Sys2Proof.Laws

/-! ## The round trip -/

/-- Settles O7: the operands of each instruction fit its row's format, and those it has not are 0. -/
theorem decodeAfterEncodeGivesTheInstruction : Obligations.DecodeAfterEncodeGivesTheInstruction := by
  unfold Obligations.DecodeAfterEncodeGivesTheInstruction
  intro i hi
  rw [decode_eq_ok_iff]
  cases i with
  | getbit br idx => exact ⟨_, br, idx, false, rfl, rfl, rfl, rfl⟩
  | setbit br idx val => exact ⟨_, br, idx, val, rfl, trivial, rfl, rfl⟩
  | wrblk br data => exact ⟨_, br, 0, false, rfl, ⟨rfl, rfl⟩, EncodedLength.wrblk br data hi, rfl⟩
  | rdblk br | ldcanon br | pack br | unpack br | bitpack br =>
    exact ⟨_, br, 0, false, rfl, ⟨rfl, rfl⟩, rfl, rfl⟩
  | wrunp data => exact ⟨_, .row, 0, false, rfl, ⟨rfl, rfl, rfl⟩, EncodedLength.wrunp data hi, rfl⟩
  | rdunp | step | eval | compress | strinit | pull | rdstat | rdrem =>
    exact ⟨_, .row, 0, false, rfl, ⟨rfl, rfl, rfl⟩, rfl, rfl⟩

/-- Settles O8: an accepted word is put together from its own fields, as the encoder does it. -/
theorem acceptedCommandsAreTheirEncodings : Obligations.AcceptedCommandsAreTheirEncodings := by
  unfold Obligations.AcceptedCommandsAreTheirEncodings
  intro c i h
  obtain ⟨o, br, idx, val, hword, hfits, hlen, rfl⟩ := (decode_eq_ok_iff c i).1 h
  refine ⟨wellFormed_assemble hlen, (word_encode_assemble hfits).trans hword.symm, data_encode_assemble hlen,
    fun harg => arg_encode_assemble ?_⟩
  rwa [← toNat_opcField, hword, opcField_wordOf, opcodeByte_eq_strinit_or_pull] at harg

/-! ## The refused commands -/

/-- Settles O9: the decoder's first error is R67's list, and the step takes it with code 1. -/
theorem illegalWordsRaiseIllegalCommand : Obligations.IllegalWordsRaiseIllegalCommand := by
  unfold Obligations.IllegalWordsRaiseIllegalCommand
  intro s c rest hp
  obtain ⟨-, hstep, -⟩ := stepRunsTheDecodedCommand s c rest hp
  exact ⟨decode_illegal_iff c, fun h => hstep ((decode_illegal_iff c).2 h)⟩

/-- Settles O10: a legal command decodes by its payload's length alone, and the step takes the decoder's
other error with code 3. -/
theorem wrongPayloadLengthRaisesLengthError : Obligations.WrongPayloadLengthRaisesLengthError := by
  unfold Obligations.WrongPayloadLengthRaisesLengthError
  intro s c rest hp hlegal
  obtain ⟨-, -, hstep⟩ := stepRunsTheDecodedCommand s c rest hp
  obtain ⟨o, br, -, hdecode⟩ := decode_of_legal c hlegal
  by_cases hlen : c.data.length = requiredLength (opcNumber c.word)
  · rw [if_neg (not_not.2 hlen)] at hdecode
    exact ⟨iff_of_true hlen ⟨_, hdecode⟩, fun hne => absurd hlen hne⟩
  · rw [if_pos hlen] at hdecode
    refine ⟨iff_of_false hlen ?_, fun _ => hstep hdecode⟩
    rintro ⟨i, hi⟩
    cases hdecode.symm.trans hi

/-! ## The operand `arg` -/

/-- R60: a command of any opcode but STRINIT and PULL decodes the same whatever its `arg` is. -/
theorem decode_arg_irrelevant (c : Command) (a : Word) (hs : opcNumber c.word ≠ 0x20)
    (hp : opcNumber c.word ≠ 0x21) : decode { c with arg := a } = decode c := by
  unfold decode
  cases ho : opcodeOfByte (opcField c.word) with
  | none => rfl
  | some o =>
    rw [opcNumber_of_opcodeOfByte ho] at hs hp
    have hreads : ¬ (o = .strinit ∨ o = .pull) := by
      rw [← opcodeByte_eq_strinit_or_pull]
      exact not_or.2 ⟨hs, hp⟩
    simp only [assemble_arg_irrelevant (arg := c.arg) hreads a]

/-- R65: what a command does to a state is fixed by what it decodes to. -/
theorem runCommand_congr {c d : Command} (h : decode c = decode d) (s : State) :
    runCommand c s = runCommand d s := by
  rw [runCommand, runCommand, h]

/-- Settles O11: `arg` is no part of what the command decodes to, and so not of what the step runs. -/
theorem argIsReadByStrinitAndPullAlone : Obligations.ArgIsReadByStrinitAndPullAlone := by
  unfold Obligations.ArgIsReadByStrinitAndPullAlone
  intro s c a rest hs hp
  have hdecode := decode_arg_irrelevant c a hs hp
  refine ⟨hdecode, ?_⟩
  rw [step_of_command _ _ rest rfl, step_of_command _ c rest rfl]
  exact runCommand_congr hdecode _

/-! ## The examples of the manual and the pseudo-instructions -/

/-- Settles O6: each word by evaluation of the decoder. -/
theorem decodesTheWordsOfTheManual : Obligations.DecodesTheWordsOfTheManual := by
  unfold Obligations.DecodesTheWordsOfTheManual
  decide

/-- Settles O12: ROW holds the block, CC its compress, and the last response CC's bytes. -/
theorem oneshotAnswersTheCompressedBlock : Obligations.OneshotAnswersTheCompressedBlock := by
  unfold Obligations.OneshotAnswersTheCompressedBlock
  intro s data hlen
  have hload : exec (.wrblk .row data) s =
      .next (respond 0 [] false { s with row := blockOf data }) := by
    rw [exec, execWrblk, if_neg (not_not.2 hlen)]
    rfl
  rw [expandPseudo, execAll_cons hload, execAll_cons rfl, execAll_cons rfl]
  refine ⟨_, rfl, ?_⟩
  simp [compressBlock, readBlk]

/-- Settles O13: each line by evaluation of the assembler. -/
theorem assemblesTheExamplesOfTheManual : Obligations.AssemblesTheExamplesOfTheManual := by
  unfold Obligations.AssemblesTheExamplesOfTheManual
  decide +kernel

end Sys2Proof.Machine
end

section
/-! PROOFS. The single-bit commands and the block commands on packed bytes (40_bitblock.md). -/

namespace Sys2Proof.Machine

/-! ## A command that writes one block register -/

/-- A command that writes `v` to one block register and responds changes nothing else, and the register
then reads `v`. -/
theorem exec_writes_block {i : Instr} {br : Br} {v : Block} {s : State}
    (h : exec i s = .next (respond 0 [] false (writeBlk br v s))) :
    ∃ t, exec i s = .next t ∧ readBlk br t = v ∧ OnlyBlockChanged br s t ∧
      t.responses = s.responses ++ [okResponse 0 [] false] :=
  ⟨_, h, by simp, onlyBlockChanged_respond_writeBlk br v s 0 [] false, by simp⟩

/-! ## Single bits -/

section Bits
variable (br : Br) {idx : BitVec 8} (val : Bool) (s : State)

/-- R80: GETBIT within the block answers the addressed bit. -/
theorem exec_getbit_of_le (h : idx.toNat ≤ 127) : exec (.getbit br idx) s =
    .next (respond (if (readBlk br s).getLsbD idx.toNat then 1 else 0) [] false s) := by
  rw [exec, execGetbit, if_neg (Nat.not_lt.2 h)]
  cases (readBlk br s).getLsbD idx.toNat <;> rfl

/-- R81: SETBIT within the block writes the addressed bit. -/
theorem exec_setbit_of_le (h : idx.toNat ≤ 127) : exec (.setbit br idx val) s =
    .next (respond 0 [] false (writeBlk br (setBlockBit (readBlk br s) idx.toNat val) s)) := by
  rw [exec, execSetbit, if_neg (Nat.not_lt.2 h)]

end Bits

/-- Settles O23: the bit stands in the packed bytes where R41 places it. -/
theorem getbitRespondsTheAddressedBit : Obligations.GetbitRespondsTheAddressedBit := by
  unfold Obligations.GetbitRespondsTheAddressedBit
  intro s br idx
  refine ⟨fun h => ?_, fun h => ?_⟩
  · rw [exec_getbit_of_le br s h, packedBit_packed _ _ (by omega)]
    rfl
  · rw [exec, execGetbit, if_pos h]
    rfl

/-- Settles O24: SETBIT's formula writes the addressed bit of the register alone. -/
theorem setbitWritesOnlyTheAddressedBit : Obligations.SetbitWritesOnlyTheAddressedBit := by
  unfold Obligations.SetbitWritesOnlyTheAddressedBit
  intro s br idx val
  refine ⟨fun h => ?_, fun h => ?_⟩
  · obtain ⟨t, ht, hread, hrest⟩ := exec_writes_block (exec_setbit_of_le br val s h)
    refine ⟨t, ht, fun i _ => ?_, hrest⟩
    rw [hread, getLsbD_setBlockBit _ _ _ _ (by omega)]
  · rw [exec, execSetbit, if_pos h]
    rfl

/-- Settles O25: GETBIT reads the register SETBIT has written, and changes nothing. -/
theorem setbitThenGetbitRespondsTheBit : Obligations.SetbitThenGetbitRespondsTheBit := by
  unfold Obligations.SetbitThenGetbitRespondsTheBit
  intro s br idx val h
  obtain ⟨hset, -⟩ := setbitWritesOnlyTheAddressedBit s br idx val
  obtain ⟨t, ht, hbits, -, hresponses⟩ := hset h
  rw [execAll_cons ht, execAll_cons (exec_getbit_of_le br t h)]
  refine ⟨_, rfl, ?_, fun i hi hne => ?_⟩
  · simp [hresponses, hbits idx.toNat (by omega)]
  · rw [readBlk_respond, hbits i hi, if_neg hne]

/-! ## Packed bytes -/

/-- R82: WRBLK of 16 bytes writes their block. -/
theorem exec_wrblk_of_length (br : Br) {data : List Byte} (s : State) (h : data.length = 16) :
    exec (.wrblk br data) s = .next (respond 0 [] false (writeBlk br (blockOf data) s)) := by
  rw [exec, execWrblk, if_neg (not_not.2 h)]

/-- Settles O26: the block of 16 bytes has each bit where R41 places it. -/
theorem wrblkLoadsThePackedBytes : Obligations.WrblkLoadsThePackedBytes := by
  unfold Obligations.WrblkLoadsThePackedBytes
  intro s br data
  refine ⟨fun h => ?_, fun h => ?_⟩
  · obtain ⟨t, ht, hread, hrest⟩ := exec_writes_block (exec_wrblk_of_length br s h)
    refine ⟨t, ht, fun i hi => ?_, hrest⟩
    rw [hread, getLsbD_blockOf data h i hi]
  · rw [exec, execWrblk, if_pos h]
    rfl

/-- Settles O27: the bytes are the packed form of the register. -/
theorem rdblkRespondsThePackedBytes : Obligations.RdblkRespondsThePackedBytes := by
  unfold Obligations.RdblkRespondsThePackedBytes
  intro s br
  exact ⟨packed (readBlk br s), length_packed _, packedBit_packed _, rfl⟩

end Sys2Proof.Machine
end

section
/-! PROOFS. The commands on the unpacked cells, the round trips, and the saturating conversion
(40_bitblock.md). -/

namespace Sys2Proof.Machine

/-! ## Cells of 0 and 1 -/

/-- R24: a byte of 0 or 1. -/
theorem byte_eq_zero_or_one {b : Byte} (h : b.toNat ≤ 1) : b = 0 ∨ b = 1 := by bv_omega

/-- The bytes of a buffer of 0 and 1 are 0 and 1. -/
theorem mem_toList_of_cellsBinary {u : Cells} (hu : CellsBinary u) {b : Byte} (hb : b ∈ u.toList) :
    b = 0 ∨ b = 1 := by
  obtain ⟨k, hk, rfl⟩ := List.mem_iff_getElem.1 hb
  have hcell := hu k (by simpa using hk)
  rw [cellAt, List.getD_eq_getElem _ _ hk] at hcell
  exact byte_eq_zero_or_one hcell

/-! ## Loading and reading the cells -/

/-- A command that writes the cell buffer and responds changes nothing else. -/
theorem exec_writes_cells {i : Instr} {u : Cells} {s : State}
    (h : exec i s = .next (respond 0 [] false { s with unp := u })) :
    ∃ t, exec i s = .next t ∧ t.unp = u ∧ OnlyCellsChanged s t ∧
      t.responses = s.responses ++ [okResponse 0 [] false] :=
  ⟨_, h, rfl, ⟨rfl, rfl, rfl, rfl, rfl, rfl⟩, rfl⟩

/-- The cells loaded from 128 bytes are those bytes, in order. -/
theorem toList_cellsOf_getD {data : List Byte} (h : data.length = 128) :
    (cellsOf fun k => data.getD k 0).toList = data := by
  have hmap : (cellsOf fun k => data.getD k 0).toList = (List.range 128).map fun k => data.getD k 0 := rfl
  rw [hmap]
  apply List.ext_getElem (by simp [h])
  intro k hk hk'
  rw [List.getElem_map, List.getElem_range, List.getD_eq_getElem _ _ hk']

/-- Settles O28: the length is checked, then every byte, and only then the cells are written. -/
theorem wrunpLoadsTheCells : Obligations.WrunpLoadsTheCells := by
  unfold Obligations.WrunpLoadsTheCells
  intro s data
  refine ⟨fun hlen hbinary => ?_, fun hlen hbad => ?_, fun hlen => ?_⟩
  · have hpass : ¬ data.any (fun b => decide (b.toNat > 1)) = true := by simpa using hbinary
    have hexec : exec (.wrunp data) s =
        .next (respond 0 [] false { s with unp := cellsOf fun k => data.getD k 0 }) := by
      rw [exec, execWrunp, if_neg (not_not.2 hlen), if_neg hpass]
    obtain ⟨t, ht, hunp, hrest⟩ := exec_writes_cells hexec
    exact ⟨t, ht, by rw [hunp, toList_cellsOf_getD hlen], hrest⟩
  · have hfound : data.any (fun b => decide (b.toNat > 1)) = true := by simpa using hbad
    rw [exec, execWrunp, if_neg (not_not.2 hlen), if_pos hfound]
    rfl
  · rw [exec, execWrunp, if_pos hlen]
    rfl

/-- Settles O29: the bytes are the buffer itself. -/
theorem rdunpRespondsTheCells : Obligations.RdunpRespondsTheCells := by
  unfold Obligations.RdunpRespondsTheCells
  intro s
  exact ⟨s.unp.toList, s.unp.length_toList, fun _ _ => rfl, rfl,
    fun hs _ hb => mem_toList_of_cellsBinary hs hb⟩

/-! ## The lossless conversions -/

/-- Settles O30: PACK writes the register from bit 0 of each cell. -/
theorem packMakesCellsBits : Obligations.PackMakesCellsBits := by
  unfold Obligations.PackMakesCellsBits
  intro s br
  obtain ⟨t, ht, hread, hrest⟩ := exec_writes_block (i := .pack br) (s := s) rfl
  exact ⟨t, ht, fun c hc => by rw [hread, getLsbD_packCells _ c hc], hrest⟩

/-- Settles O31: UNPACK writes each cell from its bit of the register. -/
theorem unpackMakesBitsCells : Obligations.UnpackMakesBitsCells := by
  unfold Obligations.UnpackMakesBitsCells
  intro s br
  obtain ⟨t, ht, hunp, hrest⟩ := exec_writes_cells (i := .unpack br) (s := s) rfl
  exact ⟨t, ht, fun c hc => by rw [hunp, cellAt_unpackBlock _ c hc], hrest⟩

/-- R90: packing the unpacked cells of a block gives the block back. -/
theorem packCells_unpackBlock (v : Block) : packCells (unpackBlock v) = v := by
  apply BitVec.eq_of_getLsbD_eq
  intro c hc
  rw [getLsbD_packCells _ c hc, cellAt_unpackBlock v c hc]
  cases v.getLsbD c <;> rfl

/-- R90: unpacking the packed block of cells of 0 and 1 gives the cells back. -/
theorem unpackBlock_packCells {u : Cells} (hu : CellsBinary u) : unpackBlock (packCells u) = u := by
  apply cells_ext
  intro c hc
  rw [cellAt_unpackBlock _ c hc, getLsbD_packCells u c hc]
  rcases byte_eq_zero_or_one (hu c hc) with h | h <;> rw [h] <;> rfl

/-- Settles O32: each conversion undoes the other, and RDBLK packs the block WRBLK has loaded. -/
theorem packAndTransferRoundTrips : Obligations.PackAndTransferRoundTrips := by
  unfold Obligations.PackAndTransferRoundTrips
  intro s br
  refine ⟨?_, fun hs => ?_, fun data hlen => ?_⟩
  · rw [execAll_cons rfl, execAll_cons rfl]
    refine ⟨_, rfl, ?_⟩
    rw [readBlk_respond, readBlk_writeBlk_same]
    exact packCells_unpackBlock _
  · rw [execAll_cons rfl, execAll_cons rfl]
    refine ⟨_, rfl, ?_⟩
    rw [respond_unp, readBlk_respond, readBlk_writeBlk_same]
    exact unpackBlock_packCells hs
  · rw [execAll_cons (exec_wrblk_of_length br s hlen), execAll_cons rfl]
    refine ⟨_, rfl, ?_⟩
    rw [respond_responses, readBlk_respond, readBlk_writeBlk_same, packed_blockOf hlen]
    simp

/-! ## The saturating conversion -/

/-- R88: with cells of 0 and 1, a group's OR is 1 exactly where a cell of the group is 1. -/
theorem groupOr_eq_one_iff {u : Cells} (hu : CellsBinary u) {g : Nat} (hg : g < 16) :
    groupOr u g = 1 ↔ ∃ k < 8, cellAt u (8 * g + k) = 1 := by
  rw [groupOr_eq u hu g hg]
  simp

/-- R88: the byte at group `g`'s place saturates on group `g`. -/
theorem getD_bitpackBytes_groupOfByte {u : Cells} (hu : CellsBinary u) (order : BitpackOrder) {g : Nat}
    (hg : g < 16) :
    ((∃ k < 8, cellAt u (8 * g + k) = 1) → (bitpackBytes order u).getD (groupOfByte order g) 0 = 0xFF) ∧
    ((∀ k < 8, cellAt u (8 * g + k) = 0) → (bitpackBytes order u).getD (groupOfByte order g) 0 = 0x00) := by
  have hplace : groupOfByte order g < 16 := by cases order <;> simp only [groupOfByte] <;> omega
  rw [getD_bitpackBytes order u _ hplace, groupOfByte_groupOfByte order g hg]
  refine ⟨fun hone => if_pos ((groupOr_eq_one_iff hu hg).2 hone), fun hzero => if_neg fun hor => ?_⟩
  obtain ⟨k, hk, hone⟩ := (groupOr_eq_one_iff hu hg).1 hor
  rw [hzero k hk] at hone
  cases hone

/-- R88: for symmetric groups the two orders give the same bytes. -/
theorem bitpackBytes_direct_eq_tail {u : Cells} (hu : CellsBinary u)
    (hsymm : ∀ g < 16, ((∃ k < 8, cellAt u (8 * g + k) = 1) ↔ ∃ k < 8, cellAt u (8 * (15 - g) + k) = 1)) :
    bitpackBytes .direct u = bitpackBytes .tail u := by
  apply List.map_congr_left
  intro j hj
  have hj16 : j < 16 := List.mem_range.1 hj
  have hgroups : groupOr u j = 1 ↔ groupOr u (15 - j) = 1 := by
    rw [groupOr_eq_one_iff hu hj16, groupOr_eq_one_iff hu (by omega), hsymm j hj16]
  exact if_congr hgroups rfl rfl

/-- Settles O33: the register packs to BITPACK's bytes, and the group's place is its own inverse under both
orders. -/
theorem bitpackSaturatesEachGroup : Obligations.BitpackSaturatesEachGroup := by
  unfold Obligations.BitpackSaturatesEachGroup
  intro s br hs
  refine ⟨?_, bitpackBytes_direct_eq_tail hs⟩
  obtain ⟨t, ht, hread, hrest⟩ := exec_writes_block (i := .bitpack br) (s := s) rfl
  refine ⟨t, ht, ?_, hrest⟩
  rintro g hg j rfl
  rw [hread, packed_blockOf (length_bitpackBytes _ _)]
  exact getD_bitpackBytes_groupOfByte hs Config.bitpackOrder hg

end Sys2Proof.Machine
end

section
/-! PROOFS. The automaton commands: the rows STEP and EVAL leave and the column EVAL records
(41_automaton.md). -/

namespace Sys2Proof.Machine

/-- R100, R103: along the iterated transition each row is the next generation of the one before it. -/
theorem isNextGeneration_iterate_transition (v : Block) (i : Nat) :
    IsNextGeneration (transition^[i] v) (transition^[i + 1] v) := by
  rw [Function.iterate_succ_apply']
  exact isNextGeneration_transition _

/-- Settles O34: STEP writes the transition of the old row, which is R101's form by definition and R100's
rule cell by cell. -/
theorem stepAppliesRule30ToEveryCell : Obligations.StepAppliesRule30ToEveryCell := by
  unfold Obligations.StepAppliesRule30ToEveryCell
  intro s
  exact ⟨transition s.row, rfl, isNextGeneration_transition s.row, rfl⟩

/-- R105: what EVAL leaves, with ROW as the 128th iterate of the transition. -/
theorem exec_eval_eq (s : State) :
    exec .eval s = .next { s with
      row := transition^[128] s.row
      cc := (evaluate s.row).2
      responses := s.responses ++ [okResponse 0 [] false] } := by
  rw [← evaluate_row]
  rfl

/-- Settles O35: the sequence of rows is the iterated transition, and the column is that of the evaluation. -/
theorem evalRecordsColumn63OfEachGeneration : Obligations.EvalRecordsColumn63OfEachGeneration := by
  unfold Obligations.EvalRecordsColumn63OfEachGeneration
  intro s
  exact ⟨fun i => transition^[i] s.row, rfl, fun i _ => isNextGeneration_iterate_transition s.row i,
    (evaluate s.row).2, evaluate_column s.row, exec_eval_eq s⟩

end Sys2Proof.Machine
end

section
/-! PROOFS. The compressor: the rows and the column COMPRESS leaves, and COMPRESS as two evaluations
(42_compressor.md). -/

namespace Sys2Proof.Machine

/-- R121: what COMPRESS leaves, with ROW as the 256th iterate of the transition. -/
theorem exec_compress_eq (s : State) :
    exec .compress s = .next { s with
      row := transition^[256] s.row
      cc := compressBlock s.row
      responses := s.responses ++ [okResponse 0 [] false] } := by
  rw [← compressRounds_row]
  rfl

/-- Settles O36: the sequence of rows is the iterated transition, and the column is that of round 2, which
starts from generation 128. -/
theorem compressOutputsRoundTwosCenterColumn : Obligations.CompressOutputsRoundTwosCenterColumn := by
  unfold Obligations.CompressOutputsRoundTwosCenterColumn
  intro s
  exact ⟨fun i => transition^[i] s.row, rfl, fun i _ => isNextGeneration_iterate_transition s.row i,
    compressBlock s.row, compressRounds_column s.row, rfl, exec_compress_eq s⟩

/-- Settles O37: both run the evaluation of the first evaluation's final row, and the second EVAL overwrites
the column the first one left in CC. -/
theorem compressEqualsTwoEvals : Obligations.CompressEqualsTwoEvals := by
  unfold Obligations.CompressEqualsTwoEvals
  intro s
  rw [execAll_cons rfl, execAll_cons rfl, execAll_nil]
  exact ⟨_, _, rfl, rfl, rfl, rfl⟩

end Sys2Proof.Machine
end

section
/-! PROOFS. The all-zero block: a fixed point of the compress function, and the stream from it
(42_compressor.md R121, 70_reset_and_hazards.md R183). -/

namespace Sys2Proof.Machine

/-! ## The fixed point -/

/-- R100: no cell of the all-zero row is born. -/
theorem transition_zero : transition 0 = 0 := by decide

/-- R121: the all-zero block compresses to itself, as every generation from it is the all-zero row. -/
theorem compressBlock_zero : compressBlock 0 = 0 := by
  refine BitVec.eq_of_getLsbD_eq fun i hi => ?_
  rw [compressBlock, compressRounds_column 0 i hi, Function.iterate_fixed transition_zero]
  simp

/-- R41: the all-zero block packs to zero bytes. -/
theorem packed_zero : packed 0 = List.replicate 16 0 := by decide

/-- R133: the chain from the all-zero block. -/
theorem eq_zero_of_mem_chainBytes_zero {k : Nat} {b : Byte} (hb : b ∈ chainBytes k 0) : b = 0 := by
  obtain ⟨j, -, hj⟩ := List.mem_flatMap.1 hb
  rw [Function.iterate_fixed compressBlock_zero, packed_zero] at hj
  exact List.eq_of_mem_replicate hj

/-- R133: from the all-zero seed every byte produced is 0 and the seed stays. -/
theorem produce_zero_seed (k r : Nat) : (∀ b ∈ (produce k r 0).1, b = 0) ∧ (produce k r 0).2 = 0 := by
  have hwhole : produceWhole k 0 = (chainBytes k 0, 0) := by
    rw [produceWhole_eq, Function.iterate_fixed compressBlock_zero]
  rw [produce, hwhole, compressBlock_zero, packed_zero]
  split
  · refine ⟨fun b hb => ?_, rfl⟩
    rcases List.mem_append.1 hb with hb | hb
    · exact eq_zero_of_mem_chainBytes_zero hb
    · exact List.eq_of_mem_replicate (List.mem_of_mem_take hb)
  · exact ⟨fun b hb => eq_zero_of_mem_chainBytes_zero hb, rfl⟩

/-- R135: the same of a PULL's bytes, under both values of P_TRUNC_ORDER. -/
theorem pullBytes_zero_seed (order : TruncOrder) (n eff : Nat) :
    (∀ b ∈ (pullBytes order n eff 0).1, b = 0) ∧ (pullBytes order n eff 0).2 = 0 := by
  cases order with
  | truncateFirst => exact produce_zero_seed _ _
  | generateThenTruncate =>
    obtain ⟨hbytes, hseed⟩ := produce_zero_seed (splitRequest n).1 (splitRequest n).2
    exact ⟨fun b hb => hbytes b (List.mem_of_mem_take hb), hseed⟩

/-! ## Commands on a stream -/

/-- R135: a delivery leaves SEED and answers the bytes as `pullBytes` gives them. -/
theorem deliver_out (order : TruncOrder) (n : Word) (s : State) :
    (deliver order n s).seed = (pullBytes order n.toNat (effectiveRequest n s) s.seed).2 ∧
    ∃ e, (deliver order n s).responses =
      s.responses ++ [okResponse 0 (pullBytes order n.toNat (effectiveRequest n s) s.seed).1 e] := by
  unfold deliver
  dsimp only
  split
  · exact ⟨rfl, _, rfl⟩
  · split <;> exact ⟨rfl, _, rfl⟩

/-- From every state of which `P` holds, the command gives one response, of which `Q` holds, and keeps `P`. -/
def ExecKeeps (P : State → Prop) (Q : Response → Prop) (i : Instr) : Prop :=
  ∀ s, P s → ∃ t r, exec i s = .next t ∧ t.responses = s.responses ++ [r] ∧ Q r ∧ P t

/-- What each of some commands keeps, their sequence keeps. -/
theorem execAll_of_execKeeps {P : State → Prop} {Q : Response → Prop} {is : List Instr}
    (hexec : ∀ i ∈ is, ExecKeeps P Q i) {s : State} (hs : P s) :
    ∃ t rs, execAll is s = .next t ∧ t.responses = s.responses ++ rs ∧ (∀ r ∈ rs, Q r) ∧ P t := by
  induction is generalizing s with
  | nil => exact ⟨s, [], rfl, by simp, by simp, hs⟩
  | cons i is ih =>
    obtain ⟨hi, his⟩ := List.forall_mem_cons.1 hexec
    obtain ⟨t, r, ht, hr, hQ, hP⟩ := hi s hs
    obtain ⟨u, rs, hu, hrs, hQs, hPu⟩ := ih his hP
    refine ⟨u, r :: rs, ?_, ?_, List.forall_mem_cons.2 ⟨hQ, hQs⟩, hPu⟩
    · rw [execAll_cons ht, hu]
    · rw [hrs, hr, List.append_assoc, List.singleton_append]

/-- R183: the stream stands at the all-zero block. -/
def ZeroSeed (s : State) : Prop := s.seed = 0

/-- A response that delivers no byte but 0. -/
def ZeroBytes (r : Response) : Prop := ∀ b ∈ r.bytes, b = 0

/-- R134: STRINIT delivers nothing and does not write SEED. -/
theorem execKeeps_strinit_zeroSeed (n : Word) : ExecKeeps ZeroSeed ZeroBytes (.strinit n) :=
  fun _ hs => ⟨_, _, rfl, respond_responses _ _ _ _, List.forall_mem_nil _, hs⟩

/-- R135: a PULL from the all-zero seed, whether it faults, finds the stream ended or delivers. -/
theorem pullStream_zeroSeed (order : TruncOrder) (n : Word) {s : State} (hs : ZeroSeed s) :
    ∃ r, (pullStream order n s).responses = s.responses ++ [r] ∧ ZeroBytes r ∧
      ZeroSeed (pullStream order n s) := by
  unfold pullStream
  split
  · exact ⟨_, takeFault_responses _ _, List.forall_mem_nil _, hs⟩
  · split
    · exact ⟨_, respond_responses _ _ _ _, List.forall_mem_nil _, hs⟩
    · obtain ⟨hseed, e, hresponses⟩ := deliver_out order n s
      rw [hs] at hseed hresponses
      obtain ⟨hbytes, hzero⟩ := pullBytes_zero_seed order n.toNat (effectiveRequest n s)
      exact ⟨_, hresponses, hbytes, hseed.trans hzero⟩

/-- R135: the same of the command, with the spec's choice of P_TRUNC_ORDER. -/
theorem execKeeps_pull_zeroSeed (n : Word) : ExecKeeps ZeroSeed ZeroBytes (.pull n) := by
  intro s hs
  obtain ⟨r, hr⟩ := pullStream_zeroSeed Config.truncOrder n hs
  exact ⟨_, r, rfl, hr⟩

/-- Settles O53: STRINIT and every PULL keep the all-zero seed and deliver zero bytes only. -/
theorem zeroSeedStreamsOnlyZeroBytes : Obligations.ZeroSeedStreamsOnlyZeroBytes := by
  unfold Obligations.ZeroSeedStreamsOnlyZeroBytes
  intro s N ns hs
  obtain ⟨t, rs, ht, hrs, hzero, hseed⟩ := execAll_of_execKeeps
    (List.forall_mem_cons.2
      ⟨execKeeps_strinit_zeroSeed N, List.forall_mem_map.2 fun n _ => execKeeps_pull_zeroSeed n⟩) hs
  refine ⟨t, rs, ht, hrs, fun b hb => ?_, hseed⟩
  obtain ⟨r, hr, hbr⟩ := List.mem_flatMap.1 hb
  exact hzero r hr b hbr

end Sys2Proof.Machine
end

section
/-! PROOFS. The canonical seed, the split of a request, the produced blocks, STRINIT and the two status
reads (43_seed_stream.md R130 to R134, R138, R139). -/

namespace Sys2Proof.Machine

/-! ## The canonical seed -/

/-- R130: the only set bit of CANON is bit 63. -/
theorem getLsbD_canon {i : Nat} (hi : i < 128) : canon.getLsbD i = decide (i = 63) := by
  rw [canon, BitVec.getLsbD_shiftLeft, BitVec.getLsbD_one]
  grind

/-- R130: the packed form of CANON. -/
theorem packed_canon : packed canon = [0, 0, 0, 0, 0, 0, 0, 0, 0x80, 0, 0, 0, 0, 0, 0, 0] := by decide

/-- Settles O38: the register holds CANON, whose bit 63 is its only one. -/
theorem ldcanonLoadsTheCanonicalSeed : Obligations.LdcanonLoadsTheCanonicalSeed := by
  unfold Obligations.LdcanonLoadsTheCanonicalSeed
  intro s br
  obtain ⟨t, ht, hread, hrest⟩ := exec_writes_block (show exec (.ldcanon br) s = .next
    (respond 0 [] false (writeBlk br canon s)) from rfl)
  refine ⟨t, ht, ?_, ?_, ?_, hrest⟩
  all_goals rw [hread]
  · exact fun i => getLsbD_canon
  · exact packed_canon
  · intro k hk
    simp [cellAt_unpackBlock canon k hk, getLsbD_canon hk]

/-! ## Produced blocks -/

/-- R133: the bytes of `k` whole blocks and `r` more are the first ones of the chain. -/
theorem take_chainBytes_succ (k r : Nat) (seed : Block) : (chainBytes (k + 1) seed).take (16 * k + r) =
    chainBytes k seed ++ (packed (compressBlock^[k + 1] seed)).take r := by
  rw [chainBytes_succ, ← length_chainBytes k seed, List.take_length_add_append]

/-- R133: `produce` delivers the chain, its last block cut to `r` bytes. -/
theorem produce_eq (k : Nat) {r : Nat} (seed : Block) :
    produce k r seed = ((chainBytes (k + if r > 0 then 1 else 0) seed).take (16 * k + r),
      compressBlock^[k + if r > 0 then 1 else 0] seed) := by
  rw [produce, produceWhole_eq]
  by_cases hr : r > 0
  · simp only [if_pos hr, take_chainBytes_succ, Function.iterate_succ_apply']
  · rw [if_neg hr, if_neg hr, Nat.eq_zero_of_not_pos hr, Nat.add_zero, Nat.add_zero,
      List.take_of_length_le (length_chainBytes k seed).le]

/-- Settles O40: `produce` in closed form, and the first byte of the packed form. -/
theorem produceChainsEveryBlock : Obligations.ProduceChainsEveryBlock := by
  unfold Obligations.ProduceChainsEveryBlock
  exact ⟨fun k r seed _ => produce_eq k seed, fun V => getD_packed V 0 (by decide)⟩

/-- Settles O39: the split by its definition, and both splits of 16 produce one whole block. -/
theorem requestSplitsIntoBlocksAndRemainder : Obligations.RequestSplitsIntoBlocksAndRemainder := by
  unfold Obligations.RequestSplitsIntoBlocksAndRemainder
  refine ⟨fun n => ?_, fun seed => ?_⟩
  · obtain ⟨hsum, -⟩ := splitRequest_spec n
    exact ⟨fun h => if_pos h, fun h => if_neg (Nat.not_le.2 h), hsum⟩
  · rw [produce_eq 0, produce_eq 1]
    rfl

/-- R132, R133: the blocks of a split request, `ceil(n/16)` of them, cut to `n` bytes. -/
theorem produce_splitRequest (n : Nat) (seed : Block) :
    produce (splitRequest n).1 (splitRequest n).2 seed =
      ((chainBytes ((n + 15) / 16) seed).take n, compressBlock^[(n + 15) / 16] seed) := by
  obtain ⟨hsum, hr⟩ := splitRequest_spec n
  have hblocks : ((splitRequest n).1 + if (splitRequest n).2 > 0 then 1 else 0) = (n + 15) / 16 := by
    split <;> omega
  have hbytes : 16 * (splitRequest n).1 + (splitRequest n).2 = n := by omega
  rw [produce_eq, hblocks, hbytes]

/-- The first `n` bytes of the chain do not depend on how many blocks of it are made, if they cover `n`. -/
theorem take_chainBytes_eq {n k l : Nat} (hk : n ≤ 16 * k) (hl : n ≤ 16 * l) (seed : Block) :
    (chainBytes k seed).take n = (chainBytes l seed).take n := by
  wlog hkl : k ≤ l generalizing k l
  · exact (this hl hk (Nat.le_of_not_le hkl)).symm
  · obtain ⟨d, rfl⟩ := Nat.exists_eq_add_of_le hkl
    rw [chainBytes_add, List.take_append_of_le_length (by simpa using hk)]

/-! ## STRINIT and the status reads -/

/-- Settles O41: REM is the budget, which is 0 for an unbounded stream. -/
theorem strinitConfiguresTheStream : Obligations.StrinitConfiguresTheStream := by
  unfold Obligations.StrinitConfiguresTheStream
  intro s n
  by_cases hn : n = 0 <;> simp [exec, execStrinit, respond, configureStatus, hn, beq_eq_decide]

/-- R26: a flag shifted to bit `k` of a word is that bit alone. -/
theorem getLsbD_flag (b : Bool) {k : Nat} (hk : k < 32) (i : Nat) :
    ((BitVec.ofBool b).setWidth 32 <<< k).getLsbD i = (decide (i = k) && b) := by
  rw [BitVec.getLsbD_shiftLeft, BitVec.getLsbD_setWidth, BitVec.getLsbD_ofBool]
  by_cases hi : i = k
  · simp [hi, hk]
  · grind

/-- R26: bit 4 of the STATUS word and those above it are the bits of ERRCODE. -/
theorem getLsbD_shiftLeft_errcode (c : BitVec 4) (i : Nat) :
    (c.setWidth 32 <<< 4).getLsbD i = (decide (4 ≤ i) && c.getLsbD (i - 4)) := by
  rw [BitVec.getLsbD_shiftLeft, BitVec.getLsbD_setWidth]
  by_cases hi : i < 32
  · grind
  · rw [BitVec.getLsbD_of_ge c (i - 4) (by omega)]; simp

/-- R26: the bits of the STATUS word. -/
theorem getLsbD_statusWord (st : Status) (i : Nat) : (statusWord st).getLsbD i =
    (decide (i = 0) && st.init || decide (i = 1) && st.unb || decide (i = 2) && st.eos ||
      decide (i = 3) && st.err || decide (4 ≤ i) && st.errcode.getLsbD (i - 4)) := by
  have hinit := getLsbD_flag st.init (k := 0) (by decide) i
  rw [BitVec.shiftLeft_zero] at hinit
  simp only [statusWord, BitVec.getLsbD_or, hinit, getLsbD_flag _ (by decide : 1 < 32),
    getLsbD_flag _ (by decide : 2 < 32), getLsbD_flag _ (by decide : 3 < 32), getLsbD_shiftLeft_errcode]

/-- Settles O47: the word holds each field in its bits. -/
theorem rdstatRespondsTheStatusFields : Obligations.RdstatRespondsTheStatusFields := by
  unfold Obligations.RdstatRespondsTheStatusFields
  intro s
  have hbit := getLsbD_statusWord s.status
  refine ⟨statusWord s.status, rfl, (hbit 0).trans (by simp), (hbit 1).trans (by simp),
    (hbit 2).trans (by simp), (hbit 3).trans (by simp), ?_, fun i hi => ?_⟩
  · refine BitVec.eq_of_getLsbD_eq fun i hi => ?_
    rw [BitVec.getLsbD_extractLsb', hbit]
    grind
  · rw [hbit, BitVec.getLsbD_of_ge _ (i - 4) (by omega)]
    simp
    omega

/-- Settles O48: RDREM reads REM, and STRINIT has put the budget there. -/
theorem rdremRespondsTheRemainingBudget : Obligations.RdremRespondsTheRemainingBudget := by
  unfold Obligations.RdremRespondsTheRemainingBudget
  intro s
  refine ⟨rfl, fun n => ⟨_, by rw [execAll_cons rfl, execAll_cons rfl, execAll_nil], ?_⟩⟩
  simp

end Sys2Proof.Machine
end

section
/-! PROOFS. One PULL: what it answers and leaves, for both values of P_TRUNC_ORDER (43_seed_stream.md R135
to R137). -/

namespace Sys2Proof.Machine

/-! ## The bytes and the seed of a PULL -/

/-- R135: the delivered bytes do not depend on P_TRUNC_ORDER. -/
theorem pullBytes_bytes (order : TruncOrder) {n eff : Nat} (h : eff ≤ n) (seed : Block) :
    (pullBytes order n eff seed).1 = (chainBytes ((eff + 15) / 16) seed).take eff := by
  cases order with
  | truncateFirst => rw [pullBytes, produce_splitRequest]
  | generateThenTruncate =>
    simp only [pullBytes, produce_splitRequest, List.take_take, Nat.min_eq_left h]
    exact take_chainBytes_eq (by omega) (by omega) seed

/-- R135: SEED after a PULL that truncates first. -/
theorem pullBytes_truncateFirst_seed (n eff : Nat) (seed : Block) :
    (pullBytes .truncateFirst n eff seed).2 = compressBlock^[(eff + 15) / 16] seed := by
  rw [pullBytes, produce_splitRequest]

/-- R135: SEED after a PULL that generates the whole request. -/
theorem pullBytes_generateThenTruncate_seed (n eff : Nat) (seed : Block) :
    (pullBytes .generateThenTruncate n eff seed).2 = compressBlock^[(n + 15) / 16] seed := by
  rw [pullBytes, produce_splitRequest]

/-! ## The closed form -/

/-- R136: the PULL signals end-of-stream: it delivers what is left of a bounded stream that has not ended. -/
def pullSignals (n : Word) (s : State) : Bool :=
  !s.status.unb && !s.status.eos && decide (s.rem.toNat = effectiveRequest n s)

/-- R135: the response of a PULL that delivers. -/
def pullResponse (n : Word) (s : State) : Response :=
  okResponse 0 ((chainBytes ((effectiveRequest n s + 15) / 16) s.seed).take (effectiveRequest n s))
    (pullSignals n s)

/-- R135: the state after a PULL that delivers, with P_TRUNC_ORDER at the spec's choice. -/
def pulled (n : Word) (s : State) : State :=
  { s with
    seed := compressBlock^[(effectiveRequest n s + 15) / 16] s.seed
    rem := if s.status.unb then s.rem else s.rem - BitVec.ofNat 32 (effectiveRequest n s)
    status := { s.status with
      eos := if s.status.unb then s.status.eos else decide (s.rem.toNat = effectiveRequest n s) }
    responses := s.responses ++ [pullResponse n s] }

/-- R135: the budget less what it covers is 0 exactly when all of it is taken. -/
theorem sub_effectiveRequest_eq_zero_iff (n : Word) {s : State} (hunb : s.status.unb = false) :
    s.rem - BitVec.ofNat 32 (effectiveRequest n s) = 0 ↔ s.rem.toNat = effectiveRequest n s := by
  have hle := effectiveRequest_le_rem n s hunb
  have hlt := s.rem.isLt
  constructor
  · intro h
    have := congrArg BitVec.toNat (sub_eq_zero.1 h)
    rwa [BitVec.toNat_ofNat, Nat.mod_eq_of_lt (by omega)] at this
  · intro h
    rw [← h, BitVec.ofNat_toNat, BitVec.setWidth_eq, sub_self]

/-- R135: a delivery is `pulled`, but for the SEED that P_TRUNC_ORDER leaves. -/
theorem deliver_eq_pulled (order : TruncOrder) (n : Word) {s : State}
    (hlive : s.status.unb = true ∨ s.status.eos = false) : deliver order n s =
    { pulled n s with seed := (pullBytes order n.toNat (effectiveRequest n s) s.seed).2 } := by
  unfold deliver
  dsimp only
  rw [pullBytes_bytes order (effectiveRequest_le n s)]
  by_cases hunb : s.status.unb = true
  · have hsignals : pullSignals n s = false := by simp [pullSignals, hunb]
    simp only [pulled, pullResponse, hsignals, if_pos hunb]
    rfl
  · have heos : s.status.eos = false := hlive.resolve_left hunb
    have hsignals : pullSignals n s = decide (s.rem.toNat = effectiveRequest n s) := by
      simp [pullSignals, hunb, heos]
    simp only [pulled, pullResponse, hsignals, if_neg hunb,
      sub_effectiveRequest_eq_zero_iff n (Bool.eq_false_of_not_eq_true hunb)]
    by_cases hlast : s.rem.toNat = effectiveRequest n s
    · simp only [if_pos hlast, decide_eq_true hlast]
      rfl
    · simp only [if_neg hlast, decide_eq_false hlast, ← heos]
      rfl

/-- R135: PULL on a configured stream that has not ended. -/
theorem pullStream_of_live (order : TruncOrder) (n : Word) {s : State} (hinit : s.status.init = true)
    (hlive : s.status.unb = true ∨ s.status.eos = false) : pullStream order n s =
    { pulled n s with seed := (pullBytes order n.toNat (effectiveRequest n s) s.seed).2 } := by
  rw [pullStream, if_neg (by simp [hinit]), if_neg (by grind), deliver_eq_pulled order n hlive]

/-- R135, as the command runs it. -/
theorem exec_pull_of_live (n : Word) {s : State} (hinit : s.status.init = true)
    (hlive : s.status.unb = true ∨ s.status.eos = false) : exec (.pull n) s = .next (pulled n s) := by
  rw [exec, execPull, Config.truncOrder, pullStream_of_live _ n hinit hlive, pullBytes_truncateFirst_seed]
  rfl

/-- R135: PULL before any STRINIT. -/
theorem exec_pull_of_not_init (n : Word) {s : State} (hinit : s.status.init = false) :
    exec (.pull n) s = .next (faulted 5 s) :=
  congrArg _ (if_pos hinit)

/-- R135: PULL after end-of-stream. -/
theorem exec_pull_of_ended (n : Word) {s : State} (hinit : s.status.init = true)
    (hunb : s.status.unb = false) (heos : s.status.eos = true) :
    exec (.pull n) s = .next (respond 0 [] false s) := by
  rw [exec, execPull, pullStream, if_neg (by simp [hinit]), if_pos ⟨hunb, heos⟩]

/-- Settles O42: the closed form, whose signal is that of a stream that has not ended. -/
theorem pullDeliversTheChain : Obligations.PullDeliversTheChain := by
  unfold Obligations.PullDeliversTheChain
  rintro s n hinit hlive eff rfl
  have hsignals : pullSignals n s =
      if s.status.unb then false else decide (s.rem.toNat = effectiveRequest n s) := by
    rcases hlive with h | h <;> cases hunb : s.status.unb <;> simp_all [pullSignals]
  rw [exec_pull_of_live n hinit hlive, pulled, pullResponse, hsignals]
  rfl

/-- Settles O44: the closed form under both orders. -/
theorem truncationOrderAffectsOnlySeed : Obligations.TruncationOrderAffectsOnlySeed := by
  unfold Obligations.TruncationOrderAffectsOnlySeed
  intro s n hinit hlive
  rw [pullStream_of_live _ n hinit hlive, pullStream_of_live _ n hinit hlive,
    pullBytes_generateThenTruncate_seed]

/-! ## Configured streams -/

/-- R26: a stream has been configured, and a bounded one has ended exactly when REM is 0. -/
def Configured (s : State) : Prop :=
  s.status.init = true ∧ (s.status.unb = false → (s.status.eos = true ↔ s.rem = 0))

/-- R26: the invariant says so of every configured stream. -/
theorem configured_of_coreInvariant {s : State} (hs : CoreInvariant s) (hinit : s.status.init = true) :
    Configured s := by
  obtain ⟨-, ⟨-, -, hended⟩, -⟩ := hs
  exact ⟨hinit, hended hinit⟩

/-- R135: a request of which nothing can be delivered, from a stream it does not end, changes nothing. -/
theorem pulled_of_effectiveRequest_eq_zero {n : Word} {s : State} (hs : Configured s)
    (h0 : effectiveRequest n s = 0) : pulled n s = respond 0 [] false s := by
  obtain ⟨-, hended⟩ := hs
  have heos : (if s.status.unb then s.status.eos else decide (s.rem.toNat = 0)) = s.status.eos := by
    cases hunb : s.status.unb with
    | true => rfl
    | false => rw [if_neg Bool.false_ne_true, Bool.eq_iff_iff, decide_eq_true_iff, hended hunb]; bv_omega
  have hrem : (if s.status.unb then s.rem else s.rem - BitVec.ofNat 32 0) = s.rem := by simp
  have hsignals : pullSignals n s = false := by
    rw [pullSignals, h0]
    grind
  simp only [pulled, pullResponse, hsignals, h0, heos, hrem]
  rfl

/-- R135: PULL on a configured stream, ended or not. -/
theorem exec_pull_of_configured (n : Word) {s : State} (hs : Configured s) :
    exec (.pull n) s = .next (pulled n s) := by
  obtain ⟨hinit, hended⟩ := hs
  by_cases hlive : s.status.unb = true ∨ s.status.eos = false
  · exact exec_pull_of_live n hinit hlive
  · obtain ⟨hunb, heos⟩ : s.status.unb = false ∧ s.status.eos = true := by simpa using hlive
    have hrem : s.rem = 0 := (hended hunb).1 heos
    rw [exec_pull_of_ended n hinit hunb heos, pulled_of_effectiveRequest_eq_zero ⟨hinit, hended⟩]
    simp [effectiveRequest, hunb, hrem]

/-- Settles O43: each corner case of the rule. -/
theorem pullDeliversNothingInTheCornerCases : Obligations.PullDeliversNothingInTheCornerCases := by
  unfold Obligations.PullDeliversNothingInTheCornerCases
  intro s n
  refine ⟨exec_pull_of_not_init n, exec_pull_of_ended n, fun hs hinit => ?_⟩
  have hconf := configured_of_coreInvariant hs hinit
  have h0 : effectiveRequest 0 s = 0 := Nat.le_zero.1 (effectiveRequest_le 0 s)
  rw [exec_pull_of_configured 0 hconf, pulled_of_effectiveRequest_eq_zero hconf h0]
  rfl

/-! ## Bounds -/

/-- R135: a PULL delivers what the budget allows. -/
theorem length_bytes_pullResponse (n : Word) (s : State) :
    (pullResponse n s).bytes.length = effectiveRequest n s := by
  rw [pullResponse, List.length_take, length_chainBytes]
  omega

/-- Settles O46: a PULL faults, finds the stream ended, or delivers what the budget allows. -/
theorem pullNeverDeliversMoreThanRequested : Obligations.PullNeverDeliversMoreThanRequested := by
  unfold Obligations.PullNeverDeliversMoreThanRequested
  intro s n
  cases hinit : s.status.init with
  | false =>
    exact ⟨_, _, exec_pull_of_not_init n hinit, rfl, Nat.zero_le _, fun _ => Nat.zero_le _,
      fun hcode => by simp at hcode⟩
  | true =>
    by_cases hlive : s.status.unb = true ∨ s.status.eos = false
    · refine ⟨_, _, exec_pull_of_live n hinit hlive, rfl, ?_⟩
      rw [length_bytes_pullResponse]
      exact ⟨effectiveRequest_le n s, effectiveRequest_le_rem n s, fun _ hunb => by
        simp [effectiveRequest, hunb]⟩
    · obtain ⟨hunb, heos⟩ : s.status.unb = false ∧ s.status.eos = true := by simpa using hlive
      exact ⟨_, _, exec_pull_of_ended n hinit hunb heos, rfl, Nat.zero_le _, fun _ => Nat.zero_le _,
        fun _ h => by simp [hunb] at h⟩

end Sys2Proof.Machine
end

section
/-! PROOFS. The end-of-stream signal (43_seed_stream.md R136). -/

namespace Sys2Proof.Machine

/-! ## A PULL on a configured stream -/

section Pulled

variable (n : Word) {s : State}

/-- R135: what is left of a bounded stream. -/
theorem toNat_rem_pulled (hunb : s.status.unb = false) :
    (pulled n s).rem.toNat = s.rem.toNat - n.toNat := by
  have hle := effectiveRequest_le_rem n s hunb
  have heff : effectiveRequest n s = min n.toNat s.rem.toNat := by simp [effectiveRequest, hunb]
  have hof : (BitVec.ofNat 32 (effectiveRequest n s)).toNat = effectiveRequest n s := by
    rw [BitVec.toNat_ofNat, Nat.mod_eq_of_lt (by omega)]
  have hrem : (pulled n s).rem = s.rem - BitVec.ofNat 32 (effectiveRequest n s) :=
    if_neg (by simp [hunb])
  rw [hrem, BitVec.toNat_sub_of_le (by rw [BitVec.le_def, hof]; exact hle), hof]
  omega

/-- R135: a bounded stream is used up by a request of all that is left or more. -/
theorem rem_pulled_eq_zero_iff (hunb : s.status.unb = false) :
    (pulled n s).rem = 0 ↔ s.rem.toNat ≤ n.toNat := by
  have hrem := toNat_rem_pulled n hunb
  bv_omega

/-- R135: STATUS.EOS after a PULL on a bounded stream. -/
theorem eos_pulled (hunb : s.status.unb = false) :
    (pulled n s).status.eos = true ↔ s.rem.toNat ≤ n.toNat := by
  simp [pulled, effectiveRequest, hunb]

/-- R135: a PULL leaves the stream configured, and ended exactly when nothing is left. -/
theorem configured_pulled (hs : Configured s) : Configured (pulled n s) := by
  obtain ⟨hinit, -⟩ := hs
  refine ⟨hinit, fun hunb => ?_⟩
  change s.status.unb = false at hunb
  rw [eos_pulled n hunb, rem_pulled_eq_zero_iff n hunb]

/-- R136: the PULL that signals is the one that uses up a bounded stream with something left. -/
theorem pullSignals_iff (hs : Configured s) :
    pullSignals n s = true ↔ s.status.unb = false ∧ s.rem ≠ 0 ∧ s.rem.toNat ≤ n.toNat := by
  obtain ⟨-, hended⟩ := hs
  cases hunb : s.status.unb with
  | true => simp [pullSignals, hunb]
  | false =>
    have heos : s.status.eos = false ↔ s.rem ≠ 0 := by rw [ne_eq, ← hended hunb, Bool.not_eq_true]
    simp [pullSignals, effectiveRequest, hunb, heos]

/-- R136: the same, by what it leaves. -/
theorem pullSignals_iff_rem_pulled (hs : Configured s) :
    pullSignals n s = true ↔ s.status.unb = false ∧ s.rem ≠ 0 ∧ (pulled n s).rem = 0 := by
  rw [pullSignals_iff n hs]
  exact and_congr_right fun hunb => by rw [rem_pulled_eq_zero_iff n hunb]

/-- R136: the PULL that signals sets STATUS.EOS. -/
theorem eos_pulled_of_pullSignals (hs : Configured s) (h : pullSignals n s = true) :
    (pulled n s).status.eos = true := by
  obtain ⟨hunb, -, hle⟩ := (pullSignals_iff n hs).1 h
  exact (eos_pulled n hunb).2 hle

/-- R136: a bounded stream that has ended stays so over a PULL. -/
theorem eos_pulled_of_ended (hs : Configured s) (hunb : s.status.unb = false) (heos : s.status.eos = true) :
    (pulled n s).status.eos = true := by
  obtain ⟨-, hended⟩ := hs
  rw [eos_pulled n hunb, (hended hunb).1 heos]
  exact Nat.zero_le _

end Pulled

/-! ## The other commands -/

/-- REM and STATUS's fields of the stream are unchanged. -/
def StreamUnchanged (s t : State) : Prop :=
  t.rem = s.rem ∧ t.status.init = s.status.init ∧ t.status.unb = s.status.unb ∧
    t.status.eos = s.status.eos

/-- R30: what completes and is no PULL does not signal. -/
theorem ExecEffect.eos_eq_false {s t : State} {i : Instr} (h : ExecEffect s i t)
    (hpull : ∀ n, i ≠ .pull n) : ∃ r, t.responses = s.responses ++ [r] ∧ r.eos = false := by
  cases h with
  | block => exact ⟨_, by rw [respond_responses, writeBlk_responses], rfl⟩
  | read | rowAndColumn | cells | configure => exact ⟨_, respond_responses _ _ _ _, rfl⟩
  | pull n | pullLast n => exact absurd rfl (hpull n)

/-- R136: a command other than PULL does not signal, and STRINIT alone of them touches the stream. -/
theorem exec_of_not_pull {i : Instr} (hpull : ∀ n, i ≠ .pull n) (s : State) :
    ∃ t r, exec i s = .next t ∧ t.responses = s.responses ++ [r] ∧ r.eos = false ∧
      (StreamUnchanged s t ∨ ∃ n, i = .strinit n) := by
  rcases exec_effect i s with ⟨f, -, hf⟩ | ⟨-, t, ht, he⟩
  · exact ⟨_, _, hf, takeFault_responses f s, rfl, .inl ⟨rfl, rfl, rfl, rfl⟩⟩
  · obtain ⟨r, hr, heos⟩ := he.eos_eq_false hpull
    refine ⟨t, r, ht, hr, heos, ?_⟩
    rcases he.stream_cases with ⟨hrem, hst⟩ | ⟨n, hi, -⟩ | ⟨n, hi, -⟩ | ⟨n, hi, -⟩
    · exact .inl ⟨hrem, by rw [hst], by rw [hst], by rw [hst]⟩
    · exact .inr ⟨n, hi⟩
    · exact absurd hi (hpull n)
    · exact absurd hi (hpull n)

/-! ## The signal -/

/-- R136: what a command other than a PULL on a configured stream does: it does not signal, and STATUS.EOS
stays unless it is STRINIT. -/
theorem runCommand_eos_of_not_configured_pull {c : Command} {s : State}
    (hpull : ∀ n, decode c = .ok (.pull n) → s.status.init = false) :
    ∃ t r, runCommand c s = .next t ∧ t.responses = s.responses ++ [r] ∧ r.eos = false ∧
      (t.status.eos = s.status.eos ∨ ∃ n, decode c = .ok (.strinit n)) := by
  cases hd : decode c with
  | error e => exact ⟨_, _, runCommand_of_error s hd, takeFault_responses _ s, rfl, .inl rfl⟩
  | ok i =>
    rw [runCommand_of_ok s hd]
    by_cases hi : ∃ n, i = .pull n
    · obtain ⟨n, rfl⟩ := hi
      exact ⟨_, _, exec_pull_of_not_init n (hpull n hd), faulted_responses 5 s, rfl, .inl rfl⟩
    · obtain ⟨t, r, ht, hr, heos, hstream⟩ := exec_of_not_pull (not_exists.1 hi) s
      exact ⟨t, r, ht, hr, heos, hstream.imp (fun ⟨_, _, _, h⟩ => h) fun ⟨n, hn⟩ => ⟨n, by rw [hn]⟩⟩

/-- Settles O45: a PULL on a configured stream, and every other command, which does not signal. -/
theorem eosIsSignalledByTheLastPullAlone : Obligations.EosIsSignalledByTheLastPullAlone := by
  unfold Obligations.EosIsSignalledByTheLastPullAlone
  intro s c rest t r hs hp ht hr
  rw [step_of_command s c rest hp] at ht
  by_cases hpull : s.status.init = true ∧ ∃ n, decode c = .ok (.pull n)
  · obtain ⟨hinit, n, hd⟩ := hpull
    have hconf : Configured { s with pending := rest } := configured_of_coreInvariant hs hinit
    rw [runCommand_of_ok _ hd, exec_pull_of_configured n hconf] at ht
    cases ht
    obtain rfl : pullResponse n { s with pending := rest } = r := by
      simpa [pulled] using hr
    refine ⟨(pullSignals_iff_rem_pulled n hconf).trans ⟨?_, ?_⟩, eos_pulled_of_pullSignals n hconf,
      fun heos => ?_⟩
    · exact fun ⟨hunb, hrem, hleft⟩ => ⟨hinit, hunb, hrem, hleft, n, hd⟩
    · exact fun ⟨_, hunb, hrem, hleft, _⟩ => ⟨hunb, hrem, hleft⟩
    · obtain ⟨-, ⟨hunbounded, -⟩, -⟩ := hs
      have hunb : s.status.unb = false := Bool.eq_false_of_not_eq_true fun hu => by
        obtain ⟨-, -, hno⟩ := hunbounded hu
        exact absurd heos (by simp [hno])
      have hno : pullSignals n { s with pending := rest } = false := by simp [pullSignals, heos]
      exact ⟨hno, .inl (eos_pulled_of_ended n hconf hunb heos)⟩
  · obtain ⟨t', r', ht', hr', hno, hstream⟩ := runCommand_eos_of_not_configured_pull
      (c := c) (s := { s with pending := rest }) fun n hd =>
        Bool.eq_false_of_not_eq_true fun hinit => hpull ⟨hinit, n, hd⟩
    rw [ht'] at ht
    cases ht
    obtain rfl : r' = r := by simpa [hr'] using hr
    rw [hno]
    refine ⟨iff_of_false Bool.false_ne_true ?_, fun h => absurd h Bool.false_ne_true,
      fun heos => ⟨rfl, ?_⟩⟩
    · exact fun ⟨hinit, _, _, _, hd⟩ => hpull ⟨hinit, hd⟩
    · exact hstream.imp_left fun h => h.trans heos

end Sys2Proof.Machine
end

section
/-! PROOFS. Sequences of commands on a stream: the exact total of a bounded stream and the endless
unbounded one (43_seed_stream.md R136, R140, R141). -/

namespace Sys2Proof.Machine

/-! ## Runs -/

/-- The commands `is`, run from `s`, answer the responses `rs` and leave `t`. -/
inductive Runs : State → List Instr → List Response → State → Prop where
  | nil (s : State) : Runs s [] [] s
  | cons {s t u : State} {i : Instr} {is : List Instr} {r : Response} {rs : List Response}
      (hexec : exec i s = .next t) (hresp : t.responses = s.responses ++ [r]) (hrest : Runs t is rs u) :
    Runs s (i :: is) (r :: rs) u

namespace Runs

variable {s t : State} {is : List Instr} {rs : List Response}

/-- R50: a run is what `execAll` does. -/
theorem execAll_eq (h : Runs s is rs t) : execAll is s = .next t := by
  induction h with
  | nil => rfl
  | cons hexec _ _ ih => rw [execAll_cons hexec, ih]

/-- R30: the responses of a run stand after those the host had. -/
theorem responses_eq (h : Runs s is rs t) : t.responses = s.responses ++ rs := by
  induction h with
  | nil => simp
  | cons _ hresp _ ih => rw [ih, hresp, List.append_assoc, List.singleton_append]

/-- R30: one response for each command. -/
theorem length_eq (h : Runs s is rs t) : rs.length = is.length := by
  induction h with
  | nil => rfl
  | cons _ _ _ ih => rw [List.length_cons, List.length_cons, ih]

/-- What each command keeps, the run keeps. -/
theorem keeps {P : State → Prop} {Q : Response → Prop} (h : Runs s is rs t)
    (hexec : ∀ i ∈ is, ExecKeeps P Q i) (hs : P s) : (∀ r ∈ rs, Q r) ∧ P t := by
  obtain ⟨t', rs', ht, hrs, hQ, hP⟩ := execAll_of_execKeeps hexec hs
  obtain rfl : t = t' := by simpa [h.execAll_eq] using ht
  obtain rfl : rs = rs' := List.append_cancel_left (h.responses_eq.symm.trans hrs)
  exact ⟨hQ, hP⟩

end Runs

/-- R164: every sequence of commands runs to its end. -/
theorem exists_runs (is : List Instr) (s : State) : ∃ rs t, Runs s is rs t := by
  induction is generalizing s with
  | nil => exact ⟨[], s, .nil s⟩
  | cons i is ih =>
    obtain ⟨t, r, hexec, hresp⟩ : ∃ t r, exec i s = .next t ∧ t.responses = s.responses ++ [r] := by
      rcases exec_cases i s with ⟨f, hf⟩ | ⟨t, ht, ⟨v, bs, e, hr⟩, -⟩
      · exact ⟨_, _, hf, takeFault_responses f s⟩
      · exact ⟨t, _, ht, hr⟩
    obtain ⟨rs, u, hrest⟩ := ih t
    exact ⟨r :: rs, u, .cons hexec hresp hrest⟩

/-- R134: the state after STRINIT. -/
def opened (n : Word) (s : State) : State :=
  respond 0 [] false { s with rem := n, status := configureStatus n s.status }

/-- R134: STRINIT leaves a configured stream. -/
theorem configured_opened (n : Word) (s : State) : Configured (opened n s) := by
  obtain ⟨-, -, hended⟩ := streamConsistent_configureStatus n s.status
  exact ⟨rfl, hended rfl⟩

/-- R134: STRINIT and the commands after it. -/
theorem exists_runs_opened (n : Word) (is : List Instr) (s : State) : ∃ rs t, Runs (opened n s) is rs t ∧
    execAll (.strinit n :: is) s = .next t ∧ t.responses = s.responses ++ okResponse 0 [] false :: rs := by
  obtain ⟨rs, t, h⟩ := exists_runs is (opened n s)
  refine ⟨rs, t, h, (execAll_cons rfl is).trans h.execAll_eq, ?_⟩
  rw [h.responses_eq, opened, respond_responses, List.append_assoc, List.singleton_append]

/-! ## The budget over a run -/

/-- A word is not 0 exactly when its value is above 0. -/
theorem word_ne_zero_iff (w : Word) : w ≠ 0 ↔ 0 < w.toNat := by bv_omega

/-- R135: what the budget allows of `k` bytes. -/
def allowed (s : State) (k : Nat) : Nat := if s.status.unb then k else min k s.rem.toNat

/-- R135, R136: from `s` on, `k` bytes of a stream are requested and `delivered` ones come, with responses
`rs` of which one signals if that uses up a bounded stream; the stream is then as `t` holds it. -/
structure Pulls (s : State) (k : Nat) (delivered : List Byte) (rs : List Response) (t : State) : Prop where
  configured : Configured t
  unb : t.status.unb = s.status.unb
  rem : s.status.unb = false → t.rem.toNat = s.rem.toNat - k
  length : delivered.length = allowed s k
  signals : eosSignals rs = if s.status.unb = false ∧ s.rem ≠ 0 ∧ s.rem.toNat ≤ k then 1 else 0

/-- Nothing is requested of a stream and nothing signals. -/
theorem pulls_nothing {s t : State} (hs : Configured s) (h : StreamUnchanged s t) {rs : List Response}
    (hrs : eosSignals rs = 0) : Pulls s 0 [] rs t := by
  obtain ⟨hinit, hended⟩ := hs
  obtain ⟨hrem, hinit', hunb, heos⟩ := h
  refine ⟨⟨hinit'.trans hinit, fun hu => ?_⟩, hunb, fun _ => by rw [hrem]; rfl, by simp [allowed], ?_⟩
  · rw [heos, hrem, hended (hunb ▸ hu)]
  · rw [hrs, if_neg]
    rintro ⟨-, hne, hle⟩
    exact Nat.not_lt.2 hle ((word_ne_zero_iff s.rem).1 hne)

/-- One PULL on a configured stream. -/
theorem pulls_pulled (n : Word) {s : State} (hs : Configured s) :
    Pulls s n.toNat (pullResponse n s).bytes [pullResponse n s] (pulled n s) where
  configured := configured_pulled n hs
  unb := rfl
  rem := toNat_rem_pulled n
  length := length_bytes_pullResponse n s
  signals := by
    rw [eosSignals_cons, eosSignals_nil, Nat.zero_add]
    exact if_congr (pullSignals_iff n hs) rfl rfl

/-- R135: what the budget allows of a longer request is what it allows of its first `k` bytes, and what is
left of it allows of the others. -/
theorem Pulls.allowed_add {s t : State} {k : Nat} {bs : List Byte} {rs : List Response}
    (h : Pulls s k bs rs t) (l : Nat) : allowed s (k + l) = allowed s k + allowed t l := by
  rw [allowed, allowed, allowed, h.unb]
  cases hunb : s.status.unb with
  | true => rfl
  | false =>
    have hrem := h.rem hunb
    simp only [Bool.false_eq_true, if_false]
    omega

/-- One request after another. -/
theorem Pulls.trans {s t u : State} {k l : Nat} {bs bs' : List Byte} {rs rs' : List Response}
    (h : Pulls s k bs rs t) (h' : Pulls t l bs' rs' u) : Pulls s (k + l) (bs ++ bs') (rs ++ rs') u where
  configured := h'.configured
  unb := h'.unb.trans h.unb
  rem hunb := by rw [h'.rem (h.unb.trans hunb), h.rem hunb, Nat.sub_sub]
  length := by rw [List.length_append, h.length, h'.length, h.allowed_add]
  signals := by
    have happend : eosSignals (rs ++ rs') = eosSignals rs + eosSignals rs' := List.countP_append
    rw [happend, h.signals, h'.signals, h.unb]
    cases hunb : s.status.unb with
    | true => rfl
    | false =>
      have hrem := h.rem hunb
      simp only [true_and, word_ne_zero_iff]
      grind

/-- R141: any commands but STRINIT. -/
theorem Runs.pulls {s t : State} {is : List Instr} {rs : List Response} (h : Runs s is rs t)
    (hs : Configured s) (his : ∀ n, .strinit n ∉ is) :
    Pulls s (requested (pullArgs is)) (pulledBytes is rs) rs t := by
  induction h with
  | nil s => exact pulls_nothing hs ⟨rfl, rfl, rfl, rfl⟩ rfl
  | @cons s t u i is r rs hexec hresp hrest ih =>
    by_cases hi : ∃ n, i = .pull n
    · obtain ⟨n, rfl⟩ := hi
      rw [exec_pull_of_configured n hs] at hexec
      cases hexec
      obtain rfl : pullResponse n s = r := by simpa [pulled] using hresp
      rw [pullArgs_pull, requested_cons, pulledBytes_pull]
      exact (pulls_pulled n hs).trans (ih (configured_pulled n hs) fun n hn => his n (.tail _ hn))
    · rw [not_exists] at hi
      obtain ⟨t', r', ht', hr', hno, hstream⟩ := exec_of_not_pull hi s
      obtain rfl : t' = t := by simpa [ht'] using hexec
      obtain rfl : r' = r := by simpa [hr'] using hresp
      have hone := pulls_nothing hs (hstream.resolve_right fun ⟨n, hn⟩ => his n (hn ▸ .head _))
        (rs := [r']) (by simp [hno])
      rw [pullArgs_other i is hi, pulledBytes_other i is r' rs hi]
      simpa using hone.trans (ih hone.configured fun n hn => his n (.tail _ hn))

/-- R141: a bounded stream, from STRINIT on. -/
theorem Pulls.bounded {s t : State} {N : Word} {k : Nat} {bs : List Byte} {rs : List Response} (hN : N ≠ 0)
    (h : Pulls (opened N s) k bs rs t) : bs.length = min N.toNat k ∧ t.rem.toNat = N.toNat - k ∧
      eosSignals rs = if N.toNat ≤ k then 1 else 0 := by
  have hunb : (opened N s).status.unb = false := by simpa [opened] using hN
  have hrem : (opened N s).rem = N := rfl
  refine ⟨?_, h.rem hunb, ?_⟩
  · rw [h.length, allowed, hunb, hrem, Nat.min_comm]
    rfl
  · rw [h.signals, hrem]
    exact if_congr ⟨fun ⟨_, _, hle⟩ => hle, fun hle => ⟨hunb, hN, hle⟩⟩ rfl rfl

/-- Settles O54: what the run does to the stream, from STRINIT on. -/
theorem otherCommandsDoNotDisturbTheBoundedTotal : Obligations.OtherCommandsDoNotDisturbTheBoundedTotal := by
  unfold Obligations.OtherCommandsDoNotDisturbTheBoundedTotal
  intro s N is hN his
  obtain ⟨rs, t, hruns, hexec, hresp⟩ := exists_runs_opened N is s
  exact ⟨t, rs, hexec, hresp, hruns.length_eq, (hruns.pulls (configured_opened N s) his).bounded hN⟩

/-! ## Sequences of PULLs -/

/-- A sequence of PULLs asks for what they ask. -/
theorem pullArgs_map_pull (ns : List Word) : pullArgs (ns.map .pull) = ns := by
  induction ns with
  | nil => rfl
  | cons n ns ih => rw [List.map_cons, pullArgs_pull, ih]

/-- The bytes a sequence of PULLs delivers are all that its responses carry. -/
theorem pulledBytes_map_pull {ns : List Word} {rs : List Response} (h : rs.length = ns.length) :
    pulledBytes (ns.map .pull) rs = deliveredBytes rs := by
  induction ns generalizing rs with
  | nil => rw [List.eq_nil_of_length_eq_zero h]; rfl
  | cons n ns ih =>
    obtain ⟨r, rs, rfl⟩ := List.exists_cons_of_length_eq_add_one h
    rw [List.map_cons, pulledBytes_pull, ih (by simpa using h), deliveredBytes_cons]

/-- R141: a sequence of PULLs. -/
theorem Runs.pulls_map_pull {s t : State} {ns : List Word} {rs : List Response}
    (h : Runs s (ns.map .pull) rs t) (hs : Configured s) :
    Pulls s (requested ns) (deliveredBytes rs) rs t := by
  have hpulls := h.pulls hs fun n hn => by simp at hn
  have hlen : rs.length = ns.length := h.length_eq.trans (List.length_map _)
  rwa [pullArgs_map_pull, pulledBytes_map_pull hlen] at hpulls

/-- A configured stream, with ROW, CC and UNP as in `s`. -/
def ConfiguredBeside (s t : State) : Prop := Configured t ∧ t.row = s.row ∧ t.cc = s.cc ∧ t.unp = s.unp

/-- R135: PULL completes on a configured stream and touches neither ROW, CC nor UNP. -/
theorem execKeeps_pull_configuredBeside (s : State) (n : Word) :
    ExecKeeps (ConfiguredBeside s) (fun r => r.code = 0) (.pull n) :=
  fun _ ⟨ht, hrest⟩ => ⟨_, _, exec_pull_of_configured n ht, rfl, rfl, configured_pulled n ht, hrest⟩

/-- Settles O50: the stream as in O54, and beside it what every PULL keeps. -/
theorem boundedStreamDeliversItsExactTotal : Obligations.BoundedStreamDeliversItsExactTotal := by
  unfold Obligations.BoundedStreamDeliversItsExactTotal
  intro s N ns hN
  obtain ⟨rs, t, hruns, hexec, hresp⟩ := exists_runs_opened N (ns.map .pull) s
  have hconf := configured_opened N s
  obtain ⟨htotal, hrem, hsignals⟩ := (hruns.pulls_map_pull hconf).bounded hN
  obtain ⟨hcodes, -, hbeside⟩ := hruns.keeps (P := ConfiguredBeside s)
    (List.forall_mem_map.2 fun n _ => execKeeps_pull_configuredBeside s n) ⟨hconf, rfl, rfl, rfl⟩
  exact ⟨t, rs, hexec, hresp, hruns.length_eq.trans (List.length_map _), hcodes, htotal, hrem, hsignals,
    hbeside⟩

/-! ## Unbounded streams -/

/-- R140: an unbounded stream with REM and EOS as in `s`, and all of STATUS if it is configured. -/
def UnboundedBeside (s t : State) : Prop :=
  t.status.unb = true ∧ t.status.init = s.status.init ∧ t.status.eos = s.status.eos ∧ t.rem = s.rem ∧
    (s.status.init = true → t.status = s.status)

/-- R140: what PULL on an unbounded stream answers: no signal, and code 0 if it is configured. -/
def UnboundedResponse (s : State) (r : Response) : Prop :=
  r.eos = false ∧ (s.status.init = true → r.code = 0)

/-- R140: PULL on an unbounded stream. -/
theorem execKeeps_pull_unbounded (s : State) (n : Word) :
    ExecKeeps (UnboundedBeside s) (UnboundedResponse s) (.pull n) := by
  rintro t ⟨hunb, hinit, heos, hrem, hst⟩
  cases hi : t.status.init with
  | false =>
    have hno : s.status.init ≠ true := by simp [← hinit, hi]
    exact ⟨_, _, exec_pull_of_not_init n hi, rfl, ⟨rfl, fun h => absurd h hno⟩,
      hunb, hinit, heos, hrem, fun h => absurd h hno⟩
  | true =>
    have hstatus : (pulled n t).status = t.status := by simp only [pulled, if_pos hunb]
    have hpulledRem : (pulled n t).rem = t.rem := if_pos hunb
    have hno : pullSignals n t = false := by simp [pullSignals, hunb]
    refine ⟨_, _, exec_pull_of_live n hi (.inl hunb), rfl, ⟨hno, fun _ => rfl⟩, ?_⟩
    rw [UnboundedBeside, hstatus, hpulledRem]
    exact ⟨hunb, hinit, heos, hrem, hst⟩

/-- Settles O49: what every PULL on an unbounded stream keeps, and the bytes of a configured one. -/
theorem unboundedStreamNeverEnds : Obligations.UnboundedStreamNeverEnds := by
  unfold Obligations.UnboundedStreamNeverEnds
  intro s ns hunb
  obtain ⟨rs, t, hruns⟩ := exists_runs (ns.map .pull) s
  obtain ⟨hresponses, -, -, heos, hrem, hst⟩ := hruns.keeps
    (P := UnboundedBeside s) (Q := UnboundedResponse s)
    (List.forall_mem_map.2 fun n _ => execKeeps_pull_unbounded s n) ⟨hunb, rfl, rfl, rfl, fun _ => rfl⟩
  obtain ⟨hno, hcodes⟩ := forall₂_and.1 hresponses
  refine ⟨t, rs, hruns.execAll_eq, hruns.responses_eq, hno, heos, hrem,
    fun hinit => ⟨fun r hr => hcodes r hr hinit, ?_, hst hinit⟩⟩
  have hconf : Configured s := ⟨hinit, fun h => by simp [hunb] at h⟩
  rw [(hruns.pulls_map_pull hconf).length, allowed, if_pos hunb]

end Sys2Proof.Machine
end

section
/-! PROOFS. Sequences of PULLs: reproducibility and the chain of whole blocks
(43_seed_stream.md R141, R142). -/

namespace Sys2Proof.Machine

/-- A first PULL on a configured stream, and the run from what it leaves. -/
theorem Runs.pull_cons {s t : State} {n : Word} {is : List Instr} {rs : List Response}
    (h : Runs s (.pull n :: is) rs t) (hs : Configured s) :
    ∃ rs', rs = pullResponse n s :: rs' ∧ Runs (pulled n s) is rs' t := by
  cases h with
  | @cons _ u _ _ _ r rs' hexec hresp hrest =>
    rw [exec_pull_of_configured n hs] at hexec
    cases hexec
    obtain rfl : pullResponse n s = r := by simpa [pulled] using hresp
    exact ⟨rs', rfl, hrest⟩

/-! ## Reproducibility -/

/-- Two states whose streams are configured and stand at the same SEED, budget and end. -/
structure SameStream (s s' : State) : Prop where
  configured : Configured s
  configured' : Configured s'
  seed : s'.seed = s.seed
  rem : s'.rem = s.rem
  unb : s'.status.unb = s.status.unb
  eos : s'.status.eos = s.status.eos

namespace SameStream

variable {s s' : State}

/-- R134: STRINIT makes two states of equal SEED the same stream. -/
theorem opened (N : Word) (h : s.seed = s'.seed) : SameStream (opened N s) (opened N s') :=
  ⟨configured_opened N s, configured_opened N s', h.symm, rfl, rfl, rfl⟩

/-- R135: a PULL of the same size gets the same bytes. -/
theorem effectiveRequest_eq (h : SameStream s s') (n : Word) :
    effectiveRequest n s' = effectiveRequest n s := by
  rw [effectiveRequest, effectiveRequest, h.unb, h.rem]

/-- R141: the same stream answers a PULL alike. -/
theorem pullResponse_eq (h : SameStream s s') (n : Word) : pullResponse n s' = pullResponse n s := by
  rw [pullResponse, pullResponse, pullSignals, pullSignals, h.effectiveRequest_eq, h.seed, h.rem, h.unb,
    h.eos]

/-- R141: and stays the same stream. -/
theorem pulled (h : SameStream s s') (n : Word) : SameStream (pulled n s) (pulled n s') where
  configured := configured_pulled n h.configured
  configured' := configured_pulled n h.configured'
  seed := by simp only [Machine.pulled, h.effectiveRequest_eq, h.seed]
  rem := by simp only [Machine.pulled, h.effectiveRequest_eq, h.rem, h.unb]
  unb := h.unb
  eos := by simp only [Machine.pulled, h.effectiveRequest_eq, h.rem, h.unb, h.eos]

/-- R141: the same PULLs get the same responses and leave the same stream. -/
theorem runs (h : SameStream s s') {ns : List Word} {rs rs' : List Response} {t t' : State}
    (hruns : Runs s (ns.map .pull) rs t) (hruns' : Runs s' (ns.map .pull) rs' t') :
    rs' = rs ∧ SameStream t t' := by
  induction ns generalizing s s' rs rs' with
  | nil =>
    cases hruns
    cases hruns'
    exact ⟨rfl, h⟩
  | cons n ns ih =>
    obtain ⟨us, rfl, hrest⟩ := hruns.pull_cons h.configured
    obtain ⟨us', rfl, hrest'⟩ := hruns'.pull_cons h.configured'
    obtain ⟨rfl, hsame⟩ := ih (h.pulled n) hrest hrest'
    exact ⟨by rw [h.pullResponse_eq n], hsame⟩

end SameStream

/-- Settles O51: STRINIT makes both states the same stream. -/
theorem equalSeedsGiveEqualStreams : Obligations.EqualSeedsGiveEqualStreams := by
  unfold Obligations.EqualSeedsGiveEqualStreams
  intro s s' N ns hseed
  obtain ⟨rs, t, hruns, hexec, hresp⟩ := exists_runs_opened N (ns.map .pull) s
  obtain ⟨rs', t', hruns', hexec', hresp'⟩ := exists_runs_opened N (ns.map .pull) s'
  obtain ⟨rfl, hsame⟩ := (SameStream.opened N hseed).runs hruns hruns'
  exact ⟨t, t', _, hexec, hexec', hresp, hresp', hsame.seed.symm, hsame.rem.symm⟩

/-! ## The chain of whole blocks -/

/-- R142: the first `a` bytes of a chain and the next `b` from the last block made, if `a` is whole blocks or
nothing comes after. -/
theorem take_chainBytes_append {a b : Nat} (h : a % 16 = 0 ∨ b = 0) (seed : Block) :
    (chainBytes ((a + 15) / 16) seed).take a ++ (chainBytes b (compressBlock^[(a + 15) / 16] seed)).take b =
      (chainBytes (a + b) seed).take (a + b) := by
  have hcover : (chainBytes (a + b) seed).take (a + b) = (chainBytes ((a + 15) / 16 + b) seed).take (a + b) :=
    take_chainBytes_eq (by omega) (by omega) seed
  rw [hcover, chainBytes_add]
  rcases h with h | rfl
  · have hlen : (chainBytes ((a + 15) / 16) seed).length = a := by rw [length_chainBytes]; omega
    rw [List.take_append, hlen, Nat.add_sub_cancel_left, List.take_of_length_le hlen.le,
      List.take_of_length_le (i := a + b) (by omega)]
  · simp

/-- R135: what the budget allows of one PULL. -/
theorem allowed_toNat (s : State) (n : Word) : allowed s n.toNat = effectiveRequest n s := rfl

/-- R142: a PULL is of whole blocks, requested or delivered, or it is cut by a budget of which nothing is left
for what comes after. -/
theorem effectiveRequest_whole_or_ended {n : Word} {s : State} (k : Nat)
    (h : n.toNat % 16 = 0 ∨ effectiveRequest n s % 16 = 0) :
    effectiveRequest n s % 16 = 0 ∨ allowed (pulled n s) k = 0 := by
  by_cases hcut : effectiveRequest n s = n.toNat
  · rw [hcut, or_self] at h
    exact .inl (hcut ▸ h)
  · have hunb : s.status.unb = false :=
      Bool.eq_false_of_not_eq_true fun hu => hcut (if_pos hu)
    have hrem := toNat_rem_pulled n hunb
    have heff : effectiveRequest n s = min n.toNat s.rem.toNat := by rw [effectiveRequest, hunb]; rfl
    have hallowed : allowed (pulled n s) k = min k (pulled n s).rem.toNat := if_neg (by simp [pulled, hunb])
    right
    omega

/-- R142: PULLs of which every one but the last is of whole blocks deliver the chain. -/
theorem Runs.deliveredBytes_eq_chain {s t : State} {ns : List Word} {m : Word} {rs : List Response}
    (h : Runs s ((ns ++ [m]).map .pull) rs t) (hs : Configured s)
    (hwhole : (∀ r ∈ rs.dropLast, r.bytes.length % 16 = 0) ∨ ∀ n ∈ ns, n.toNat % 16 = 0) :
    deliveredBytes rs = (chainBytes (allowed s (requested (ns ++ [m]))) s.seed).take
      (allowed s (requested (ns ++ [m]))) := by
  induction ns generalizing s rs with
  | nil =>
    obtain ⟨rs, rfl, hrest⟩ := h.pull_cons hs
    cases hrest
    rw [List.nil_append, requested_cons, requested_nil, Nat.add_zero, allowed_toNat, deliveredBytes_cons,
      deliveredBytes_nil, List.append_nil]
    exact take_chainBytes_eq (by omega) (by omega) s.seed
  | cons n ns ih =>
    obtain ⟨rs, rfl, hrest⟩ := h.pull_cons hs
    have hne : rs ≠ [] := by
      rintro rfl
      simpa using hrest.length_eq
    rw [List.dropLast_cons_of_ne_nil hne, List.forall_mem_cons, List.forall_mem_cons,
      length_bytes_pullResponse] at hwhole
    have hfirst : n.toNat % 16 = 0 ∨ effectiveRequest n s % 16 = 0 :=
      hwhole.symm.imp And.left And.left
    have hseed : (pulled n s).seed = compressBlock^[(effectiveRequest n s + 15) / 16] s.seed := rfl
    have hbytes : (pullResponse n s).bytes =
      (chainBytes ((effectiveRequest n s + 15) / 16) s.seed).take (effectiveRequest n s) := rfl
    rw [deliveredBytes_cons, ih hrest (configured_pulled n hs) (hwhole.imp And.right And.right), hseed,
      hbytes,
      take_chainBytes_append (effectiveRequest_whole_or_ended _ hfirst), List.cons_append, requested_cons,
      (pulls_pulled n hs).allowed_add, allowed_toNat]

/-- Settles O52: the stream is configured with the budget `N`, of which `total` is what it allows. -/
theorem wholeBlockPullsDeliverTheChain : Obligations.WholeBlockPullsDeliverTheChain := by
  unfold Obligations.WholeBlockPullsDeliverTheChain
  rintro s N ns m total rfl
  obtain ⟨rs, t, hruns, hexec, hresp⟩ := exists_runs_opened N ((ns ++ [m]).map .pull) s
  refine ⟨t, rs, hexec, hresp, by simpa using hruns.length_eq, fun hwhole => ?_⟩
  have hallowed : allowed (opened N s) (requested (ns ++ [m])) =
      if N = 0 then requested (ns ++ [m]) else min N.toNat (requested (ns ++ [m])) := by
    simp [allowed, opened, Nat.min_comm]
  rw [← hallowed]
  exact hruns.deliveredBytes_eq_chain (configured_opened N s) hwhole

end Sys2Proof.Machine
end

section
/-! PROOFS. Faults: the code of every command, the whole effect of a fault, and the sticky record
(60_exceptions.md R161 to R163, R172). -/

namespace Sys2Proof.Machine

/-! ## One step, by what the port holds -/

/-- R161, R163: a step with a command on the port either has R161's effect with R163's code, or that code
is 0 and the command completes. -/
theorem step_of_command_cases {s : State} {c : Command} {rest : List HostInput}
    (hp : s.pending = .command c :: rest) :
    (commandCode c s ≠ 0 ∧ step s = .next (faulted (commandCode c s) { s with pending := rest })) ∨
    (commandCode c s = 0 ∧ ∃ t, step s = .next t ∧ Completes { s with pending := rest } t) := by
  rw [step_of_command s c rest hp]
  rcases runCommand_effect c { s with pending := rest } with ⟨f, hf, hrun⟩ | ⟨h0, i, t, -, hrun, he⟩
  · have hcode : commandCode c s = faultCode f := hf
    rw [hcode, hrun, takeFault_eq_faulted]
    exact .inl ⟨(faultCode_bounds f).1, rfl⟩
  · exact .inr ⟨h0, t, hrun, he.completes⟩

/-- R180: the step of a state whose next input is the reset. -/
theorem step_of_reset {s : State} {rest : List HostInput} (hp : s.pending = .reset :: rest) :
    step s = .next (resetCore { s with pending := rest }) := by
  unfold step takeInput
  rw [hp]

/-- Settles O3: the port has no input to take. -/
theorem idleCoreKeepsItsState : Obligations.IdleCoreKeepsItsState := by
  unfold Obligations.IdleCoreKeepsItsState
  intro s hp
  unfold step takeInput
  rw [hp]

/-! ## The code and the effect of a fault -/

/-- Settles O14: a fault answers its code, and a command that completes answers 0. -/
theorem firstFailingCheckGivesTheCode : Obligations.FirstFailingCheckGivesTheCode := by
  unfold Obligations.FirstFailingCheckGivesTheCode
  intro s c rest hp
  rcases step_of_command_cases hp with ⟨-, hstep⟩ | ⟨h0, t, hstep, ⟨v, bs, e, hresp⟩, -⟩
  · exact ⟨_, _, hstep, faulted_responses _ _, rfl⟩
  · exact ⟨t, _, hstep, hresp, h0.symm⟩

/-- Settles O15: a command whose code is not 0 does not complete. -/
theorem faultChangesOnlyTheFaultRecord : Obligations.FaultChangesOnlyTheFaultRecord := by
  unfold Obligations.FaultChangesOnlyTheFaultRecord
  intro s c rest hp hcode
  rcases step_of_command_cases hp with ⟨-, hstep⟩ | ⟨h0, -⟩
  · exact hstep
  · exact absurd h0 hcode

/-! ## The sticky record -/

/-- R162: a command that completes keeps ERR, keeps ERRCODE and answers 0, which is the sticky rule with
code 0; a fault sets ERR and records its code if none is recorded. -/
theorem faultRecord_of_command {s t : State} {c : Command} {rest : List HostInput}
    (hp : s.pending = .command c :: rest) (h : step s = .next t) :
    (t.status.err = true ↔ s.status.err = true ∨ commandCode c s ≠ 0) ∧
    t.status.errcode = if s.status.errcode = 0 then (commandCode c s).setWidth 4 else s.status.errcode := by
  rcases step_of_command_cases hp with ⟨hne, hstep⟩ | ⟨h0, u, hstep, -, -, herr, hcode⟩
  · cases hstep.symm.trans h
    exact ⟨iff_of_true rfl (.inr hne), rfl⟩
  · cases hstep.symm.trans h
    rw [herr, hcode, h0]
    refine ⟨by simp, ?_⟩
    split
    · next hnone => exact hnone
    · rfl

/-- Settles O16: a command obeys the sticky rule and answers R163's code, and reset leaves the record of the
reset state. -/
theorem faultRecordIsSticky : Obligations.FaultRecordIsSticky := by
  unfold Obligations.FaultRecordIsSticky
  intro s t h
  refine ⟨fun c rest hp => ?_, fun rest hp => ?_⟩
  · obtain ⟨herr, herrcode⟩ := faultRecord_of_command hp h
    obtain ⟨u, r, hstep, hresp⟩ := firstFailingCheckGivesTheCode s c rest hp
    cases hstep.symm.trans h
    exact ⟨herr, herrcode, r, hresp⟩
  · cases (step_of_reset hp).symm.trans h
    exact ⟨rfl, rfl⟩

end Sys2Proof.Machine
end

section
/-! PROOFS. Reset between two commands and during one (70_reset_and_hazards.md R180, R181). -/

namespace Sys2Proof.Machine

/-! ## The reset values -/

/-- R24, R180: every cell of the reset state is 0; `cellAt` reads 0 beyond the buffer too. -/
@[simp] theorem cellAt_reset_unp (k : Nat) : cellAt State.reset.unp k = 0 := by
  have hcells : State.reset.unp.toList = List.replicate 128 0 := rfl
  rw [cellAt, hcells, List.getD_eq_getElem?_getD, List.getElem?_getD_replicate_default_eq]

/-- R26, R180: the host reads STATUS as 0 after reset. -/
@[simp] theorem statusWord_reset : statusWord State.reset.status = 0 := by decide

/-- Settles O1: the registers of the reset state are 0 by definition, its cells and its STATUS word by the
lemmas above; the step at the reset input is `resetCore`. -/
theorem resetPutsEveryElementAtItsResetValue : Obligations.ResetPutsEveryElementAtItsResetValue := by
  unfold Obligations.ResetPutsEveryElementAtItsResetValue
  refine ⟨⟨rfl, rfl, rfl, fun k _ => cellAt_reset_unp k, rfl, statusWord_reset, rfl, rfl⟩, ?_⟩
  intro s rest hp
  exact step_of_reset hp

/-! ## Reset during a command -/

/-- R181: the step of a state whose next input is a command that reset cuts off does not depend on the
command. -/
theorem step_of_resetDuring {s : State} {c : Command} {rest : List HostInput}
    (hp : s.pending = .resetDuring c :: rest) :
    step s = .next (resetCore { s with pending := rest }) := by
  unfold step takeInput
  rw [hp]

/-- Settles O2: such a step is `resetCore`, which keeps the port's two lists alone. -/
theorem resetAbandonsTheRunningCommand : Obligations.ResetAbandonsTheRunningCommand := by
  unfold Obligations.ResetAbandonsTheRunningCommand
  intro s c rest hp
  exact step_of_resetDuring hp

end Sys2Proof.Machine
end
